-- ==== Sys2Proof/Word.lean ====
section
/-! DEFINITION. The word types of the block (spec/00_scope.md R4, R8): a byte is 8 bits, an FCS
accumulator, an FCS and a Protocol value are 16 bits. All arithmetic is unsigned. -/

namespace Sys2Proof

/-- `u8`, an atomic 8-bit symbol (R8, R33). -/
abbrev Byte := BitVec 8

/-- `u16`: FCS accumulator, FCS, Protocol (R4). -/
abbrev Half := BitVec 16

end Sys2Proof
end

