-- ==== Sys2Proof/Config.lean ====
section
/-! DEFINITION. The parameters of spec/00_scope.md R4: the source's constants, the build parameters
that a model takes as an argument, and the free value the spec leaves open (93 U9). -/

namespace Sys2Proof

/-- What is fixed when the block is built. `RX_CAP` is OPEN in R4 (a model argument, at least
`MIN_FRAME`); every statement about the model holds for each value of it. Log 7. -/
structure Config where
  /-- `RX_CAP`, the capacity of the receive buffer in bytes. -/
  rxCap : Nat
  deriving DecidableEq, Repr

namespace Config

/-- `FLAG`, the frame delimiter (R4). -/
def flag : Byte := 0x7E
/-- `ESC`, the escape byte (R4). -/
def esc : Byte := 0x7D
/-- `XORMASK` (R4). -/
def xorMask : Byte := 0x20
/-- `ADDR`, the Address field value (R4). -/
def addr : Byte := 0xFF
/-- `CTRL`, the Control field value (R4). -/
def ctrl : Byte := 0x03
/-- `POLY`, the reflected FCS polynomial (R4, R80). -/
def poly : Half := 0x8408
/-- `FCS_INIT` (R4, R80). -/
def fcsInit : Half := 0xFFFF
/-- `FCS_GOOD`, the residue of a good frame (R4, R80). -/
def fcsGood : Half := 0xF0B8
/-- `MIN_FRAME`, the least accepted number of unescaped bytes between flags (R4). -/
def minFrame : Nat := 4
/-- `MRU_DEFAULT` (R4). -/
def mruDefault : Nat := 1500
/-- `RX_OVERHEAD` (R4; the spec's decision D3). -/
def rxOverhead : Nat := 6
/-- `TX_ACCM`, the hardwired transmit map (R4, R15). -/
def txAccm : BitVec 32 := 0xFFFFFFFF
/-- `OPT_MAXVAL`, the largest option value length (R4). -/
def optMaxVal : Nat := 253

/-- The build of R4: `RX_CAP = MRU_DEFAULT + RX_OVERHEAD = 1506`. -/
def default : Config := { rxCap := mruDefault + rxOverhead }

/-- FREE VALUE (93 U9: "any value"; R22: "every byte of `rx_buf` unspecified"): what the byte at an
index of `rx_buf` (second argument) holds while nothing has been written there since reset or since
the last frame ended or was dropped, counted by `State.rxEpoch` (first argument). It has no body, so
nothing can be proved about it. Logs 9 and 10. -/
opaque unspecifiedRxByte : Nat → Nat → Byte

end Config
end Sys2Proof
end

