-- ==== Sys2Proof/Syntax.lean ====
section
/-! DEFINITION. What the block executes: one constructor of `Instr` for each row of
spec/opcode_table.json (spec/30_encoding.md R62, R68), with its operands as data, and the names the
rows are keyed by (reader states R11, byte classes R50, table formats R68). -/

namespace Sys2Proof

/-- The four values of `rx_state` (R11). They have no numeric encoding (D13). -/
inductive RxState where
  | idle
  | frameStart
  | inFrame
  | inFrameEscape
  deriving DecidableEq, Repr

/-- The class of a wire byte (R50, R121). -/
inductive ByteClass where
  | flag
  | esc
  | data
  deriving DecidableEq, Repr

/-- One option of a TLV list as the codec hands it out and takes it: `(type, value)` (R161, R163). -/
structure TlvOption where
  type : Byte
  value : List Byte
  deriving DecidableEq, Repr

/-- The column `format` of spec/opcode_table.json: how the bits of a row are to be read. The
patterns of different formats overlap, so bits alone do not name a row. Log 4. -/
inductive Format where
  /-- `op`: an operation number and the operands (R62). -/
  | op
  /-- `wire-byte@<state>`: a byte on the line, met in that reader state (R50). -/
  | wireByte (st : RxState)
  /-- `wire-pair`: the two wire bytes of an escape pair (R52). -/
  | wirePair
  /-- `header`: the start of a frame content whose FCS has been removed (R54). -/
  | header
  /-- `trailer`: the two FCS bytes (R56). -/
  | trailer
  /-- `tlv`: an option and what follows it in its list (R58). -/
  | tlv
  /-- `packet`: the Information of a control frame (R59). -/
  | packet
  deriving DecidableEq, Repr

/-- The instructions: the rows of spec/opcode_table.json. -/
inductive Instr where
  -- FCSU (40_fcs.md)
  | fcsInit
  | fcsUpdate (acc : Half) (b : Byte)
  | fcsRun (acc : Half) (s : List Byte)
  | fcsFinal (acc : Half)
  | fcsCheck (acc : Half)
  -- TXU (41_frame_writer.md)
  | escNeeds (b : Byte)
  | escEnc (b : Byte)
  | escStuff (s : List Byte)
  | pppEncode (protocol : Half) (payload : List Byte)
  | txWrite (protocol : Half) (payload : List Byte)
  -- RXU (42_frame_reader.md)
  | rxPush (b : Byte)
  | pppDecode (d : List Byte)
  | escUnstuff (s : List Byte)
  -- OPTU (43_option_codec.md)
  | optNext (s : List Byte)
  | optParse (s : List Byte)
  | optPut (buf : List Byte) (cap : Nat) (type : Byte) (value : List Byte)
  | optEmit (cap : Nat) (list : List TlvOption)
  -- the twelve reader transitions (R122 to R133)
  | rxIdleFlag
  | rxIdleEsc
  | rxIdleData (b : Byte)
  | rxFrameStartFlag
  | rxFrameStartEsc
  | rxFrameStartData (b : Byte)
  | rxInFrameFlag
  | rxInFrameEsc
  | rxInFrameData (b : Byte)
  | rxInFrameEscapeFlag
  | rxInFrameEscapeEsc
  | rxInFrameEscapeData (b : Byte)
  -- the layout rows (R52, R54, R56, R58, R59)
  | escapePair (b : Byte)
  | headerFull (p : BitVec 7) (q : Byte) (body : List Byte)
  | headerPfc (p : BitVec 7) (body : List Byte)
  | headerAcfcPfc (p : BitVec 7) (body : List Byte)
  | fcsField (low high : Byte)
  | optionTlv (type length : Byte) (tail : List Byte)
  | controlPacket (code id : Byte) (len : Half) (tail : List Byte)
  deriving DecidableEq, Repr

end Sys2Proof
end

