-- ==== Sys2Proof/Machine/Operands.lean ====
section
/-! DEFINITION. Operand forms: how bytes make up wider values (spec/00_scope.md R8 "Multi-byte
assembly", spec/20_memory.md R32), and the byte layout of a numbered operation's operands, which the
spec does not give (91 N31) and the model chooses (log 3). -/

namespace Sys2Proof

/-- `be16(a, b) = a * 256 + b` (R8). -/
def be16 (a b : Byte) : Half := a ++ b

/-- `be32(a, b, c, d)` (R8, R165). -/
def be32 (a b c d : Byte) : BitVec 32 := a ++ b ++ c ++ d

/-- `hi8(w) = w[15:8]` (R8). -/
def hi8 (w : Half) : Byte := w.extractLsb' 8 8

/-- `lo8(w) = w[7:0]` (R8). -/
def lo8 (w : Half) : Byte := w.extractLsb' 0 8

/-- `zext_16(b)` (R8). -/
def zext16 (b : Byte) : Half := b.setWidth 16

/-- The byte `ppppppp1` of the header patterns (R54): a one-byte Protocol. -/
def oddByte (p : BitVec 7) : Byte := p ++ 1#1

/-- The byte `ppppppp0` of the header pattern `full` (R54): the high byte of a two-byte Protocol. -/
def evenByte (p : BitVec 7) : Byte := p ++ 0#1

/-- Bits 7 to 1 of a header byte, `ppppppp` of R54's patterns. -/
def upper7 (b : Byte) : BitVec 7 := b.extractLsb' 1 7

/-- Where a counted field ends (R65): `len` counts the `header` bytes already read, so the field is the
next `len - header` bytes; with it comes what follows. `none` where `len` does not count the header or
counts more bytes than there are. -/
def splitCounted (header len : Nat) (s : List Byte) : Option (List Byte × List Byte) :=
  if len < header then none
  else if s.length + header < len then none
  else some (s.take (len - header), s.drop (len - header))

/-- A natural as operand bytes, seven bits to a byte, least significant first, bit 7 set on every
byte but the last; `fuel` bounds the digits. Log 3. -/
def encodeNatFuel : Nat → Nat → List Byte
  | 0, n => [BitVec.ofNat 8 n]
  | fuel + 1, n =>
    if n < 128 then [BitVec.ofNat 8 n]
    else BitVec.ofNat 8 (128 + n % 128) :: encodeNatFuel fuel (n / 128)

/-- A natural as operand bytes. -/
def encodeNat (n : Nat) : List Byte := encodeNatFuel n n

/-- Reads a natural off the front of the operand bytes, with what follows it. A leading digit of
zero is refused, so that a natural has one spelling. -/
def decodeNat : List Byte → Option (Nat × List Byte)
  | [] => none
  | b :: rest =>
    if b.toNat < 128 then some (b.toNat, rest)
    else
      match decodeNat rest with
      | none => none
      | some (n, rest') => if n = 0 then none else some (b.toNat - 128 + 128 * n, rest')

/-- A list of options as operand bytes: for each its type, the length of its value, its value. -/
def encodeOptions : List TlvOption → List Byte
  | [] => []
  | o :: os => o.type :: encodeNat o.value.length ++ o.value ++ encodeOptions os

/-- Reads a list of options to the end of the operand bytes; `fuel` bounds the number of options. -/
def decodeOptionsFuel : Nat → List Byte → Option (List TlvOption)
  | _, [] => some []
  | 0, _ :: _ => none
  | fuel + 1, t :: rest =>
    match decodeNat rest with
    | none => none
    | some (n, rest') =>
      if rest'.length < n then none
      else
        match decodeOptionsFuel fuel (rest'.drop n) with
        | none => none
        | some os => some ({ type := t, value := rest'.take n } :: os)

/-- Reads a list of options to the end of the operand bytes. -/
def decodeOptions (bs : List Byte) : Option (List TlvOption) := decodeOptionsFuel bs.length bs

end Sys2Proof
end

