-- ==== Sys2Proof/Machine/Flags.lean ====
section
/-! DEFINITION. The block has no status flags and no condition codes (spec/10_state.md R18). What
stands here is every condition its rules compute from bytes: the class of a wire byte, the escape
predicate, the low-bit test of a header byte. -/

namespace Sys2Proof

/-- The class of a byte, a function of the byte alone (R50, R121). -/
def classify (b : Byte) : ByteClass :=
  if b = Config.flag then .flag
  else if b = Config.esc then .esc
  else .data

/-- `ESC.NEEDS` (R100): must the writer escape `b` under the transmit map `accm`? Bit `b` of the map
stands for byte value `b` (R15). A byte of `0x20` or above other than the two specials never needs it,
whatever the map (D6). -/
def escNeeds (accm : BitVec 32) (b : Byte) : Bool :=
  b == Config.flag || b == Config.esc || (decide (b.toNat < 0x20) && accm.getLsbD b.toNat)

/-- Bit 0 of a header byte: set means that a Protocol field starting with it is one byte (R55). -/
def lowBit (b : Byte) : Bool := b.getLsbD 0

end Sys2Proof
end

