-- ==== Sys2Proof/WellFormed.lean ====
section
/-! DEFINITION. Which terms of `Instr` a row of the table can hold (spec/30_encoding.md R68: the rows
of one state are tried FLAG, ESC, then DATA; the header rows full, PFC, then ACFC + PFC). -/

namespace Sys2Proof

/-- Does the row admit these operands? A DATA row never holds a FLAG or an ESC byte (R50), and the
address-less header never starts with `0xFF` (R54, R136). Every other operand is free. -/
def Instr.wellFormed : Instr → Bool
  | .rxIdleData b => classify b == .data
  | .rxFrameStartData b => classify b == .data
  | .rxInFrameData b => classify b == .data
  | .rxInFrameEscapeData b => classify b == .data
  | .headerAcfcPfc p _ => oddByte p != Config.addr
  | .fcsInit => true
  | .fcsUpdate _ _ => true
  | .fcsRun _ _ => true
  | .fcsFinal _ => true
  | .fcsCheck _ => true
  | .escNeeds _ => true
  | .escEnc _ => true
  | .escStuff _ => true
  | .pppEncode _ _ => true
  | .txWrite _ _ => true
  | .rxPush _ => true
  | .pppDecode _ => true
  | .escUnstuff _ => true
  | .optNext _ => true
  | .optParse _ => true
  | .optPut _ _ _ _ => true
  | .optEmit _ _ => true
  | .rxIdleFlag => true
  | .rxIdleEsc => true
  | .rxFrameStartFlag => true
  | .rxFrameStartEsc => true
  | .rxInFrameFlag => true
  | .rxInFrameEsc => true
  | .rxInFrameEscapeFlag => true
  | .rxInFrameEscapeEsc => true
  | .escapePair _ => true
  | .headerFull _ _ _ => true
  | .headerPfc _ _ => true
  | .fcsField _ _ => true
  | .optionTlv _ _ _ => true
  | .controlPacket _ _ _ _ => true

/-- An instruction a row of the table can hold. -/
abbrev Instr.WellFormed (i : Instr) : Prop := i.wellFormed = true

end Sys2Proof
end

