-- ==== Sys2Proof/Decode.lean ====
section
/-! DEFINITION. From bytes to instructions and back (spec/30_encoding.md R50, R52, R54, R56, R58, R59,
R62, R68). Bytes are read under a format of the opcode table, because the patterns of its formats
overlap (log 4). Decoding is total and rejects by name; a reserved or unassigned pattern never falls
through to a neighbour. -/

namespace Sys2Proof

/-- Why bytes are no instruction under a format. -/
inductive DecodeError where
  /-- No bytes at all. -/
  | nothing
  /-- An operation number that R62 does not assign ("Every other value of `op` is unassigned"). -/
  | unassignedOp (op : Byte)
  /-- The operand bytes do not make up the operands of this operation (the model's layout, log 3). -/
  | badOperands (op : Byte)
  /-- Not exactly the one byte of a `wire-byte` row. -/
  | notOneWireByte
  /-- Not `7D b` (R52). -/
  | notEscapePair
  /-- None of the three header forms of R54. -/
  | noHeaderForm
  /-- Not exactly the two bytes of the FCS field (R56). -/
  | notTrailer
  /-- No room for the type and length bytes of an option (R58). -/
  | notTlv
  /-- No room for the four header bytes of a control packet (R59). -/
  | notPacket
  deriving DecidableEq, Repr

/-- The operation numbers of R62, with the operand bytes of log 3: 16-bit operands high byte first,
a natural by `encodeNat`, the last byte sequence up to the end. -/
def decodeOp (op : Byte) (args : List Byte) : Except DecodeError Instr :=
  match op.toNat with
  | 0x00 => match args with
    | [] => .ok .fcsInit
    | _ => .error (.badOperands op)
  | 0x01 => match args with
    | [h, l, b] => .ok (.fcsUpdate (be16 h l) b)
    | _ => .error (.badOperands op)
  | 0x02 => match args with
    | h :: l :: s => .ok (.fcsRun (be16 h l) s)
    | _ => .error (.badOperands op)
  | 0x03 => match args with
    | [h, l] => .ok (.fcsFinal (be16 h l))
    | _ => .error (.badOperands op)
  | 0x04 => match args with
    | [h, l] => .ok (.fcsCheck (be16 h l))
    | _ => .error (.badOperands op)
  | 0x10 => match args with
    | [b] => .ok (.escNeeds b)
    | _ => .error (.badOperands op)
  | 0x11 => match args with
    | [b] => .ok (.escEnc b)
    | _ => .error (.badOperands op)
  | 0x12 => .ok (.escStuff args)
  | 0x13 => match args with
    | h :: l :: s => .ok (.pppEncode (be16 h l) s)
    | _ => .error (.badOperands op)
  | 0x14 => match args with
    | h :: l :: s => .ok (.txWrite (be16 h l) s)
    | _ => .error (.badOperands op)
  | 0x20 => match args with
    | [b] => .ok (.rxPush b)
    | _ => .error (.badOperands op)
  | 0x21 => .ok (.pppDecode args)
  | 0x22 => .ok (.escUnstuff args)
  | 0x30 => .ok (.optNext args)
  | 0x31 => .ok (.optParse args)
  | 0x32 => match decodeNat args with
    | none => .error (.badOperands op)
    | some (cap, rest) => match decodeNat rest with
      | none => .error (.badOperands op)
      | some (n, rest') => match rest'.drop n with
        | t :: value => .ok (.optPut (rest'.take n) cap t value)
        | [] => .error (.badOperands op)
  | 0x33 => match decodeNat args with
    | none => .error (.badOperands op)
    | some (cap, rest) => match decodeOptions rest with
      | none => .error (.badOperands op)
      | some list => .ok (.optEmit cap list)
  | _ => .error (.unassignedOp op)

/-- The rows `RX.PUSH@<state>.<class>`: the byte's class, tried FLAG, ESC, DATA, picks the row of that
state (R50, R68, R139). -/
def decodeWireByte (st : RxState) (b : Byte) : Instr :=
  match st, classify b with
  | .idle, .flag => .rxIdleFlag
  | .idle, .esc => .rxIdleEsc
  | .idle, .data => .rxIdleData b
  | .frameStart, .flag => .rxFrameStartFlag
  | .frameStart, .esc => .rxFrameStartEsc
  | .frameStart, .data => .rxFrameStartData b
  | .inFrame, .flag => .rxInFrameFlag
  | .inFrame, .esc => .rxInFrameEsc
  | .inFrame, .data => .rxInFrameData b
  | .inFrameEscape, .flag => .rxInFrameEscapeFlag
  | .inFrameEscape, .esc => .rxInFrameEscapeEsc
  | .inFrameEscape, .data => .rxInFrameEscapeData b

/-- The three header rows in the order of the table's field `order` (R54, R68): a first byte `0xFF`
is always Address. -/
def decodeHeader : List Byte → Except DecodeError Instr
  | [] => .error .noHeaderForm
  | a :: rest =>
    if a = Config.addr then
      match rest with
      | c :: ph :: rest' =>
        if c = Config.ctrl then
          if lowBit ph then .ok (.headerPfc (upper7 ph) rest')
          else
            match rest' with
            | pl :: body => .ok (.headerFull (upper7 ph) pl body)
            | [] => .error .noHeaderForm
        else .error .noHeaderForm
      | _ => .error .noHeaderForm
    else if lowBit a then .ok (.headerAcfcPfc (upper7 a) rest)
    else .error .noHeaderForm

/-- The instruction that `bytes` are under a format, or why they are none. -/
def decode (f : Format) (bytes : List Byte) : Except DecodeError Instr :=
  match f with
  | .op => match bytes with
    | [] => .error .nothing
    | op :: args => decodeOp op args
  | .wireByte st => match bytes with
    | [b] => .ok (decodeWireByte st b)
    | _ => .error .notOneWireByte
  | .wirePair => match bytes with
    | [e, b] => if e = Config.esc then .ok (.escapePair b) else .error .notEscapePair
    | _ => .error .notEscapePair
  | .header => decodeHeader bytes
  | .trailer => match bytes with
    | [l, h] => .ok (.fcsField l h)
    | _ => .error .notTrailer
  | .tlv => match bytes with
    | t :: l :: tail => .ok (.optionTlv t l tail)
    | _ => .error .notTlv
  | .packet => match bytes with
    | c :: i :: h :: l :: tail => .ok (.controlPacket c i (be16 h l) tail)
    | _ => .error .notPacket

/-- The format and the bytes of an instruction, written from the same tables. A DATA row is the byte
itself; a FLAG or ESC row is its one byte value. -/
def encode : Instr → Format × List Byte
  | .fcsInit => (.op, [0x00])
  | .fcsUpdate acc b => (.op, [0x01, hi8 acc, lo8 acc, b])
  | .fcsRun acc s => (.op, 0x02 :: hi8 acc :: lo8 acc :: s)
  | .fcsFinal acc => (.op, [0x03, hi8 acc, lo8 acc])
  | .fcsCheck acc => (.op, [0x04, hi8 acc, lo8 acc])
  | .escNeeds b => (.op, [0x10, b])
  | .escEnc b => (.op, [0x11, b])
  | .escStuff s => (.op, 0x12 :: s)
  | .pppEncode p s => (.op, 0x13 :: hi8 p :: lo8 p :: s)
  | .txWrite p s => (.op, 0x14 :: hi8 p :: lo8 p :: s)
  | .rxPush b => (.op, [0x20, b])
  | .pppDecode d => (.op, 0x21 :: d)
  | .escUnstuff s => (.op, 0x22 :: s)
  | .optNext s => (.op, 0x30 :: s)
  | .optParse s => (.op, 0x31 :: s)
  | .optPut buf cap t value =>
    (.op, 0x32 :: (encodeNat cap ++ (encodeNat buf.length ++ (buf ++ t :: value))))
  | .optEmit cap list => (.op, 0x33 :: (encodeNat cap ++ encodeOptions list))
  | .rxIdleFlag => (.wireByte .idle, [0x7E])
  | .rxIdleEsc => (.wireByte .idle, [0x7D])
  | .rxIdleData b => (.wireByte .idle, [b])
  | .rxFrameStartFlag => (.wireByte .frameStart, [0x7E])
  | .rxFrameStartEsc => (.wireByte .frameStart, [0x7D])
  | .rxFrameStartData b => (.wireByte .frameStart, [b])
  | .rxInFrameFlag => (.wireByte .inFrame, [0x7E])
  | .rxInFrameEsc => (.wireByte .inFrame, [0x7D])
  | .rxInFrameData b => (.wireByte .inFrame, [b])
  | .rxInFrameEscapeFlag => (.wireByte .inFrameEscape, [0x7E])
  | .rxInFrameEscapeEsc => (.wireByte .inFrameEscape, [0x7D])
  | .rxInFrameEscapeData b => (.wireByte .inFrameEscape, [b])
  | .escapePair b => (.wirePair, [0x7D, b])
  | .headerFull p q body => (.header, 0xFF :: 0x03 :: evenByte p :: q :: body)
  | .headerPfc p body => (.header, 0xFF :: 0x03 :: oddByte p :: body)
  | .headerAcfcPfc p body => (.header, oddByte p :: body)
  | .fcsField l h => (.trailer, [l, h])
  | .optionTlv t l tail => (.tlv, t :: l :: tail)
  | .controlPacket c i len tail => (.packet, c :: i :: hi8 len :: lo8 len :: tail)

/-! ### Words as the opcode table numbers them -/

/-- The `n` low bytes of `w`, the most significant first: a table pattern is written with the most
significant bit of its FIRST byte first (R68). -/
def tableBytes : Nat → Nat → List Byte
  | 0, _ => []
  | n + 1, w => BitVec.ofNat 8 (w / 256 ^ n) :: tableBytes n w

/-- How many operand bytes an operation number has at least: its fixed operands and empty sequences
(log 3); `none` for an unassigned number. -/
def operandBytes (op : Byte) : Option Nat :=
  match op.toNat with
  | 0x00 => some 0
  | 0x01 => some 3
  | 0x02 => some 2
  | 0x03 => some 2
  | 0x04 => some 2
  | 0x10 => some 1
  | 0x11 => some 1
  | 0x12 => some 0
  | 0x13 => some 2
  | 0x14 => some 2
  | 0x20 => some 1
  | 0x21 => some 0
  | 0x22 => some 0
  | 0x30 => some 0
  | 0x31 => some 0
  | 0x32 => some 3
  | 0x33 => some 1
  | _ => none

/-- An 8-bit word of the table: an operation number with operands of zeros if R62 assigns it, else a
wire byte met in the state after reset. -/
def tableByteItem (w : Nat) : Format × List Byte :=
  let b := BitVec.ofNat 8 w
  match operandBytes b with
  | some n => (.op, b :: List.replicate n 0)
  | none => (.wireByte .idle, [b])

/-- A 16-bit word of the table: an escape pair if its first byte is `7D`, else an FCS field. -/
def tablePairItem (w : Nat) : Format × List Byte :=
  if w / 256 = 0x7D then (.wirePair, tableBytes 2 w) else (.trailer, tableBytes 2 w)

/-- The format and bytes that a word of `nbits` bits, numbered as spec/opcode_table.json numbers its
rows, stands for: the first row in table order of that width whose pattern it meets. The width alone
does not name the format, and the reader's pseudo-field `width_bits` lies one bit above five of the
layout rows, so a word one byte wider than such a row is read as that row. Log 5. -/
def tableItem (nbits w : Nat) : Option (Format × List Byte) :=
  if nbits ≤ 8 then some (tableByteItem w)
  else if nbits ≤ 16 then
    if w < 0xFF ∧ w % 2 = 1 then some (.header, tableBytes 1 w)
    else some (tablePairItem w)
  else if nbits ≤ 24 then
    if w < 65536 then some (tablePairItem w) else some (.header, tableBytes 3 w)
  else if nbits ≤ 32 then
    if w / 256 = 0xFF03 ∧ w % 2 = 1 then some (.header, tableBytes 3 w)
    else if w / 65536 = 0xFF03 ∧ w / 256 % 2 = 0 then some (.header, tableBytes 4 w)
    else some (.packet, tableBytes 4 w)
  else none

/-- The instruction the decoder reads from a word of the opcode table. -/
def decodeTableWord (nbits w : Nat) : Option Instr :=
  match tableItem nbits w with
  | none => none
  | some (f, bytes) =>
    match decode f bytes with
    | .ok i => some i
    | .error _ => none

end Sys2Proof
end

