-- ==== Sys2Proof/Machine/State.lean ====
section
/-! DEFINITION. The machine's state as plain data (spec/10_state.md R10 to R24), the results its
operations return (spec/00_scope.md R8 "Results"), the reasons a step can stop, and reset
(spec/10_state.md R22, spec/70_reset_and_hazards.md R250). -/

namespace Sys2Proof.Machine

/-- The contents of `rx_buf`: by index, indices strictly rising, the bytes written since reset or since
the last frame ended or was dropped (93 U9). An index that is not listed has no value here; what the
block then reads is `State.rxByte`. Logs 9 and 10. -/
abbrev Memory := List Host.Cell

/-- A delivered frame (R120): copies of the header values and of the body (R19). -/
structure Frame where
  address : Byte
  control : Byte
  protocol : Half
  body : List Byte
  deriving DecidableEq, Repr

/-- The event of one `RX.PUSH` (R120). -/
inductive Event where
  /-- Nothing to report. -/
  | none
  /-- A good frame, delivered. -/
  | frame (f : Frame)
  /-- `Error(FrameTooLong)`: the receive buffer overflowed. -/
  | frameTooLong
  deriving DecidableEq, Repr

/-- What an operation returns to the host (R8, R62). The block keeps none of it (R10). -/
inductive Result where
  /-- An FCS accumulator (R81, R82, R84). -/
  | acc (v : Half)
  /-- `(fcs, low, high)` (R85), and an FCS field read as a number (R56). -/
  | fcs (value : Half) (low high : Byte)
  /-- A `bool` (R87, R100). -/
  | truth (v : Bool)
  /-- A byte sequence (R101 to R104, R137). -/
  | bytes (s : List Byte)
  /-- The event of an `RX.PUSH` (R120). -/
  | event (e : Event)
  /-- `Frame{...}` from `PPP.DECODE` (R136). -/
  | frame (f : Frame)
  /-- `Reject` from `PPP.DECODE` (R136). -/
  | reject
  /-- `End` (R160). -/
  | optEnd
  /-- `Item(type, value, rest)` (R160). -/
  | optItem (type : Byte) (value rest : List Byte)
  /-- `Malformed` (R160, R161). -/
  | malformed
  /-- `Ok(list)` of `OPT.PARSE` (R161). -/
  | optList (list : List TlvOption)
  /-- `Ok(buf')` of `OPT.PUT` (R162). -/
  | optBuffer (buf : List Byte)
  /-- `Ok(bytes, n)` of `OPT.EMIT` (R163). -/
  | optEmitted (bytes : List Byte) (n : Nat)
  /-- `Overflow` (R162, R163); it carries no buffer (93 U6, log 20). -/
  | overflow
  /-- The fields of a control packet: its body, `len - 4` bytes, and the bytes beyond its end (R59, R65).
  Where `len` is inconsistent there is no body, and `beyond` is all that follows the header (log 22). -/
  | packet (code id : Byte) (len : Half) (body : Option (List Byte)) (beyond : List Byte)
  deriving DecidableEq, Repr

/-- The six error outcomes of the block (R230). They have no cause codes (D13). -/
inductive ErrorOutcome where
  | frameTooLong
  | fcsMismatch
  | tooShort
  | headerReject
  | malformed
  | overflow
  deriving DecidableEq, Repr

/-- How the host hands bytes to the block: a numbered operation, a byte off the line, or bytes under
one of the table's layout formats. A line byte becomes a row of the reader's present state (R50). -/
inductive Channel where
  | op
  | line
  | wirePair
  | header
  | trailer
  | tlv
  | packet
  deriving DecidableEq, Repr

/-- One operation the host has decided on: where it goes and its bytes. -/
structure Issue where
  channel : Channel
  bytes : List Byte
  deriving DecidableEq, Repr

/-- Why a step stops with a fault. The spec gives the block none (R243). -/
inductive Fault where
  /-- Raised by `memRead` and `memWrite` on an access to `rx_buf` outside `0..RX_CAP-1`, which R8 rules
  out and no rule issues (R36): only in a state no run reaches (`rx_len > RX_CAP`). Safe. Log 16. -/
  | rxBufOutOfRange
  deriving DecidableEq, Repr

/-- Why the model gives a step no meaning: the spec's `refuse` (R8, R234, 93 U8). -/
inductive Refusal where
  /-- Raised by an arm of `exec` that has no meaning yet (none is left). Safe. -/
  | notModelled (mnemonic : String)
  /-- Raised by `step` when the issued bytes are no instruction: an operation number R62 does not
  assign, operands that do not parse, bytes that fit no row of the format. Safe. -/
  | undecodable (e : DecodeError)
  /-- Raised by `ESC.UNSTUFF` on a sequence outside the precondition of R137. Safe. -/
  | unstuffPrecondition
  /-- Raised by `OPT.PUT` and `OPT.EMIT` on a value longer than 253 bytes (R162, R163, U8). Safe. -/
  | optValueTooLong
  /-- Raised by `OPT.PUT` on a buffer already over its capacity (R162, U8). Safe. -/
  | optBufferOverCap
  /-- Raised by a reader-transition row run in another state or on a byte of another class, and by the
  address-less header row on `0xFF`: R120, R136 select another row there, so this one has no effect to
  model. `step` never decodes such a row. Safe. Log 12. -/
  | rowNotSelected
  deriving DecidableEq, Repr

/-- The state. The first five fields are the whole state of the spec (R10); the last four are the
model's own (logs 7, 10, 1, 2). -/
structure State where
  /-- `rx_state` (R11). -/
  rxState : RxState
  /-- `rx_buf` (R12). -/
  rxBuf : Memory
  /-- `rx_len` (R13). -/
  rxLen : Nat
  /-- `fcs_err_cnt` (R14), unbounded (U5, log 11). -/
  fcsErrCnt : Nat
  /-- `TX_ACCM` (R15), written by nothing (log 8). -/
  txAccm : BitVec 32
  /-- The build parameters (R4), written by nothing (log 7). -/
  cfg : Config
  /-- How many frames have ended or been dropped: it picks the free values the buffer then holds (93 U9,
  log 10). No result or transition depends on it. -/
  rxEpoch : Nat
  /-- The host's operations not issued yet, oldest first (R5, R6, log 1). -/
  pending : List Issue
  /-- The results returned so far, oldest first (R262, log 2). -/
  results : List Result
  deriving DecidableEq, Repr

/-- `BLK.RESET` of a block built with `cfg` (R250): the values of R22. -/
def State.resetWith (cfg : Config) : State where
  rxState := .idle
  rxBuf := []
  rxLen := 0
  fcsErrCnt := 0
  txAccm := Config.txAccm
  cfg := cfg
  rxEpoch := 0
  pending := []
  results := []

/-- The machine right after reset, with `RX_CAP = 1506` (R4, R22). -/
def State.reset : State := State.resetWith Config.default

end Sys2Proof.Machine
end

