-- ==== Sys2Proof/Machine/Ops.lean ====
section
/-! DEFINITION. The named operations over the state that every meaning is built from: the memory
primitives `MemRead` and `MemWrite` (spec/00_scope.md R8), handing a result to the host
(spec/20_memory.md R31), and the state effect of an error outcome (spec/60_exceptions.md R230, R237),
which is all that "taking an exception" is on this block. -/

namespace Sys2Proof.Machine

/-- Indices strictly rising: the one form of a memory, so that equal memories are equal data. An
index not listed reads as no value, so no entry can equal what an unlisted index reads as. -/
def Memory.wf : Memory → Bool
  | [] => true
  | [_] => true
  | (a, _) :: (a', b') :: m => decide (a < a') && Memory.wf ((a', b') :: m)

/-- The byte written at an index; no value where nothing has been written. -/
def Memory.read? : Memory → Nat → Option Byte
  | [], _ => none
  | (k, v) :: m, a => if a = k then some v else Memory.read? m a

/-- Writes one byte, in place or at its place in the order. -/
def Memory.write : Memory → Nat → Byte → Memory
  | [], a, b => [(a, b)]
  | (k, v) :: m, a, b =>
    if a < k then (a, b) :: (k, v) :: m
    else if a = k then (a, b) :: m
    else (k, v) :: Memory.write m a b

/-- The byte of `rx_buf` at an index: what was last written there, or the free value of a byte
nothing has written since the buffer last became unspecified (U9, logs 9 and 10). -/
def State.rxByte (s : State) (a : Nat) : Byte :=
  (s.rxBuf.read? a).getD (Config.unspecifiedRxByte s.rxEpoch a)

/-- `MemRead(a, n)`, the bytes `rx_buf[a..a+n)`; it requires `a + n ≤ RX_CAP` (R8). -/
def memRead (a n : Nat) (s : State) : Host.Outcome (List Byte) Fault Refusal :=
  if a + n ≤ s.cfg.rxCap then .next ((List.range n).map fun k => s.rxByte (a + k))
  else .fault .rxBufOutOfRange

/-- Stores the bytes `v` at `rx_buf[a..]`, one after the other. -/
def Memory.writeAll : Memory → Nat → List Byte → Memory
  | m, _, [] => m
  | m, a, b :: bs => Memory.writeAll (m.write a b) (a + 1) bs

/-- `MemWrite(a, n, v)` with `n = |v|`; it requires `a + n ≤ RX_CAP` (R8). -/
def memWrite (a : Nat) (v : List Byte) (s : State) : Host.Outcome State Fault Refusal :=
  if a + v.length ≤ s.cfg.rxCap then .next { s with rxBuf := s.rxBuf.writeAll a v }
  else .fault .rxBufOutOfRange

/-- Hands a result to the host: it is a value, the block keeps nothing of it (R19, R31, R262). -/
def State.emit (s : State) (r : Result) : State := { s with results := s.results ++ [r] }

/-- An operation that changes no state of the block and returns `r` (R7). -/
def answer (r : Result) (s : State) : Host.Outcome State Fault Refusal := .next (s.emit r)

/-- The frame being assembled is over: `rx_len` is 0 and all of `rx_buf` is unspecified ("after every
completed or dropped frame", U9), that is, free values of its own. Log 10. -/
def State.dropContent (s : State) : State :=
  { s with rxLen := 0, rxBuf := [], rxEpoch := s.rxEpoch + 1 }

/-- The whole effect of an error outcome of the reader on the state, the column "state effect" of
R230: nothing is saved and control goes nowhere (R237, R238). `Malformed` and `Overflow` change
nothing; nor does a `Reject` of `PPP.DECODE`, which does not come here. -/
def State.raise (s : State) : ErrorOutcome → State
  | .frameTooLong => { s.dropContent with rxState := .idle }
  | .fcsMismatch => { s.dropContent with rxState := .frameStart, fcsErrCnt := s.fcsErrCnt + 1 }
  | .tooShort => { s.dropContent with rxState := .frameStart }
  | .headerReject => { s.dropContent with rxState := .frameStart }
  | .malformed => s
  | .overflow => s

/-- Recovery (R239): there is no return from an outcome. What is left for the reader to do after a
completed frame, good or not, is this (R135 "in every outcome"). -/
def State.frameDone (s : State) : State := { s.dropContent with rxState := .frameStart }

/-- Ends a reader operation: its event is its result. -/
def deliver (o : Host.Outcome (State × Event) Fault Refusal) : Host.Outcome State Fault Refusal :=
  match o with
  | .next (s, e) => .next (s.emit (.event e))
  | .fault f => .fault f
  | .refused r => .refused r

end Sys2Proof.Machine
end

