-- ==== Sys2Proof/Machine/Options.lean ====
section
/-! DEFINITION. OPTU, the option TLV codec (spec/43_option_codec.md): `OPT.NEXT`, `OPT.PARSE`,
`OPT.PUT`, `OPT.EMIT`. All pure; `type` and `value` are opaque (R166). -/

namespace Sys2Proof.Machine

/-- What `OPT.NEXT` finds (R160). -/
inductive NextOption where
  | done
  | item (type : Byte) (value rest : List Byte)
  | malformed
  deriving DecidableEq, Repr

/-- `OPT.NEXT` (R160). The length byte `l` counts the two header bytes. -/
def optNext : List Byte → NextOption
  | [] => .done
  | [_] => .malformed
  | t :: l :: s =>
    match splitCounted 2 l.toNat s with
    | some (value, rest) => .item t value rest
    | none => .malformed

/-- The loop of R161, `out` the options read so far; each turn shortens the list by at least 2, so
`fuel` never runs out when it starts above the length. -/
def optParseLoop : Nat → List Byte → List TlvOption → Option (List TlvOption)
  | 0, _, _ => none
  | fuel + 1, s, out =>
    match optNext s with
    | .done => some out
    | .malformed => none
    | .item t v rest => optParseLoop fuel rest (out ++ [{ type := t, value := v }])

/-- `OPT.PARSE` (R161); `none` is `Malformed`: nothing of a malformed list is reported. -/
def optParse (s : List Byte) : Option (List TlvOption) := optParseLoop (s.length + 1) s []

/-- `OPT.PUT` on a value of at most 253 bytes (R162); `none` is `Overflow`: an option is written whole
or not at all. -/
def optPut (buf : List Byte) (cap : Nat) (t : Byte) (value : List Byte) : Option (List Byte) :=
  if cap < buf.length + (2 + value.length) then none
  else some (buf ++ [t, BitVec.ofNat 8 (2 + value.length)] ++ value)

/-- The loop of R163 from the bytes emitted so far. -/
def optEmitLoop (cap : Nat) : List Byte → List TlvOption → Option (List Byte)
  | buf, [] => some buf
  | buf, o :: os =>
    match optPut buf cap o.type o.value with
    | none => none
    | some buf' => optEmitLoop cap buf' os

/-- `OPT.EMIT` on values of at most 253 bytes (R163); `none` is `Overflow`. -/
def optEmit (cap : Nat) (list : List TlvOption) : Option (List Byte) := optEmitLoop cap [] list

/-- Does every value fit a length byte (R162, R163, U8)? -/
def valuesFit (list : List TlvOption) : Bool :=
  list.all fun o => decide (o.value.length ≤ Config.optMaxVal)

/-- What `OPT.NEXT` answers. -/
def nextResult : NextOption → Result
  | .done => .optEnd
  | .item t v rest => .optItem t v rest
  | .malformed => .malformed

/-- `OPT.NEXT s` (R160). -/
def execOptNext (bytes : List Byte) (s : State) : Host.Outcome State Fault Refusal :=
  answer (nextResult (optNext bytes)) s

/-- `OPT.PARSE s` (R161). -/
def execOptParse (bytes : List Byte) (s : State) : Host.Outcome State Fault Refusal :=
  match optParse bytes with
  | some list => answer (.optList list) s
  | none => answer .malformed (s.raise .malformed)

/-- `OPT.PUT buf, cap, type, value` (R162): refused outside its operand conditions. -/
def execOptPut (buf : List Byte) (cap : Nat) (t : Byte) (value : List Byte) (s : State) :
    Host.Outcome State Fault Refusal :=
  if Config.optMaxVal < value.length then .refused .optValueTooLong
  else if cap < buf.length then .refused .optBufferOverCap
  else
    match optPut buf cap t value with
    | some buf' => answer (.optBuffer buf') s
    | none => answer .overflow (s.raise .overflow)

/-- `OPT.EMIT cap, list` (R163): refused if any value is longer than 253 bytes (U8, log 17). -/
def execOptEmit (cap : Nat) (list : List TlvOption) (s : State) : Host.Outcome State Fault Refusal :=
  if valuesFit list then
    match optEmit cap list with
    | some bytes => answer (.optEmitted bytes bytes.length) s
    | none => answer .overflow (s.raise .overflow)
  else .refused .optValueTooLong

end Sys2Proof.Machine
end

