-- ==== Sys2Proof/Machine/Reader.lean ====
section
/-! DEFINITION. RXU, the frame reader (spec/42_frame_reader.md): `PPP.DECODE`, `ESC.UNSTUFF`,
`RX.PUSH` with its twelve transitions, and the pseudo-operations `RX.FEED` and `RX.FEEDALL`. -/

namespace Sys2Proof.Machine

/-! ### PPP.DECODE -/

/-- `Frame{address = 0xFF, control = 0x03, protocol, body}`: the implied values stand in for an
omitted header too (R136, D29). -/
def frameOf (protocol : Half) (body : List Byte) : Frame :=
  { address := Config.addr, control := Config.ctrl, protocol := protocol, body := body }

/-- The Protocol field and the body, from the first byte after Address and Control (R136, R55). -/
def decodeProtocol : List Byte → Option Frame
  | [] => none
  | p :: rest =>
    if lowBit p then some (frameOf (zext16 p) rest)
    else
      match rest with
      | [] => none
      | l :: body => some (frameOf (be16 p l) body)

/-- `PPP.DECODE` (R136); `none` is `Reject`. -/
def pppDecode : List Byte → Option Frame
  | [] => none
  | a :: rest =>
    if a = Config.addr then
      match rest with
      | [] => none
      | c :: rest' => if c = Config.ctrl then decodeProtocol rest' else none
    else if lowBit a then decodeProtocol (a :: rest)
    else none

/-- What `PPP.DECODE` answers. -/
def decodeResult : Option Frame → Result
  | some f => .frame f
  | none => .reject

/-! ### ESC.UNSTUFF -/

/-- The precondition of R137: `0x7E` stands only directly after an unpaired `0x7D`, and the sequence
does not end in an unpaired `0x7D`. -/
def unstuffOk : List Byte → Bool
  | [] => true
  | [b] => b != Config.esc && b != Config.flag
  | b :: c :: s =>
    if b = Config.esc then unstuffOk s else b != Config.flag && unstuffOk (c :: s)

/-- The loop of R137. A last byte that is an unpaired `0x7D` does not meet `unstuffOk`. -/
def unstuff : List Byte → List Byte
  | [] => []
  | [b] => [b]
  | b :: c :: s =>
    if b = Config.esc then (c ^^^ Config.xorMask) :: unstuff s else b :: unstuff (c :: s)

/-! ### RX.PUSH -/

/-- `Append(v)` (R134): store one unescaped byte at `rx_buf[rx_len]`, or overflow. -/
def appendByte (v : Byte) (s : State) : Host.Outcome (State × Event) Fault Refusal :=
  if s.rxLen = s.cfg.rxCap then .next (s.raise .frameTooLong, .frameTooLong)
  else
    match memWrite s.rxLen [v] s with
    | .next s' => .next ({ s' with rxLen := s.rxLen + 1, rxState := .inFrame }, .none)
    | .fault f => .fault f
    | .refused r => .refused r

/-- The checks of `Complete()` on the content `c`, in their order: length, FCS, header (R135, R240). -/
def completeContent (c : List Byte) (s : State) : State × Event :=
  if c.length < Config.minFrame then (s.raise .tooShort, .none)
  else if fcsCheck (fcsRun Config.fcsInit c) then
    match pppDecode (c.take (c.length - 2)) with
    | some f => (s.frameDone, .frame f)
    | none => (s.raise .headerReject, .none)
  else (s.raise .fcsMismatch, .none)

/-- `Complete()` (R135): a frame has ended; its content is `rx_buf[0..rx_len)`. -/
def complete (s : State) : Host.Outcome (State × Event) Fault Refusal :=
  match memRead 0 s.rxLen s with
  | .next c => .next (completeContent c s)
  | .fault f => .fault f
  | .refused r => .refused r

/-- R122. -/
def idleFlag (s : State) : Host.Outcome (State × Event) Fault Refusal :=
  .next ({ s with rxState := .frameStart }, .none)

/-- R123: discarded; `Idle` does not track escapes. -/
def idleEsc (s : State) : Host.Outcome (State × Event) Fault Refusal := .next (s, .none)

/-- R124: discarded. -/
def idleData (_ : Byte) (s : State) : Host.Outcome (State × Event) Fault Refusal := .next (s, .none)

/-- R125: an empty span between two flags is not a frame. -/
def frameStartFlag (s : State) : Host.Outcome (State × Event) Fault Refusal := .next (s, .none)

/-- R126: the frame begins with an escaped byte still to come. -/
def frameStartEsc (s : State) : Host.Outcome (State × Event) Fault Refusal :=
  .next ({ s with rxState := .inFrameEscape }, .none)

/-- R127. -/
def frameStartData (b : Byte) (s : State) : Host.Outcome (State × Event) Fault Refusal :=
  appendByte b s

/-- R128: the closing flag. -/
def inFrameFlag (s : State) : Host.Outcome (State × Event) Fault Refusal := complete s

/-- R129. -/
def inFrameEsc (s : State) : Host.Outcome (State × Event) Fault Refusal :=
  .next ({ s with rxState := .inFrameEscape }, .none)

/-- R130: stored whatever its value (R143). -/
def inFrameData (b : Byte) (s : State) : Host.Outcome (State × Event) Fault Refusal :=
  appendByte b s

/-- R131: not a flag here; `0x5E` is stored (D7). -/
def inFrameEscapeFlag (s : State) : Host.Outcome (State × Event) Fault Refusal :=
  appendByte (Config.flag ^^^ Config.xorMask) s

/-- R132: not a new escape; `0x5D` is stored (D7). -/
def inFrameEscapeEsc (s : State) : Host.Outcome (State × Event) Fault Refusal :=
  appendByte (Config.esc ^^^ Config.xorMask) s

/-- R133. -/
def inFrameEscapeData (b : Byte) (s : State) : Host.Outcome (State × Event) Fault Refusal :=
  appendByte (b ^^^ Config.xorMask) s

/-- `RX.PUSH b` (R120): the one transition that matches `rx_state` and the class of `b` (R139). -/
def pushByte (b : Byte) (s : State) : Host.Outcome (State × Event) Fault Refusal :=
  match s.rxState, classify b with
  | .idle, .flag => idleFlag s
  | .idle, .esc => idleEsc s
  | .idle, .data => idleData b s
  | .frameStart, .flag => frameStartFlag s
  | .frameStart, .esc => frameStartEsc s
  | .frameStart, .data => frameStartData b s
  | .inFrame, .flag => inFrameFlag s
  | .inFrame, .esc => inFrameEsc s
  | .inFrame, .data => inFrameData b s
  | .inFrameEscape, .flag => inFrameEscapeFlag s
  | .inFrameEscape, .esc => inFrameEscapeEsc s
  | .inFrameEscape, .data => inFrameEscapeData b s

/-- `RX.FEEDALL` (R138): every byte in order, the events that are not `None`. -/
def rxFeedAll : List Byte → State → Host.Outcome (State × List Event) Fault Refusal
  | [], s => .next (s, [])
  | b :: bs, s =>
    match pushByte b s with
    | .next (s', e) =>
      match rxFeedAll bs s' with
      | .next (s'', es) => .next (s'', if e = .none then es else e :: es)
      | .fault f => .fault f
      | .refused r => .refused r
    | .fault f => .fault f
    | .refused r => .refused r

/-- `RX.FEED` (R138): bytes in order up to the first whose event is not `None`; how many it took. -/
def rxFeed : List Byte → State → Host.Outcome (State × Nat × Event) Fault Refusal
  | [], s => .next (s, 0, .none)
  | b :: bs, s =>
    match pushByte b s with
    | .next (s', e) =>
      if e = .none then
        match rxFeed bs s' with
        | .next (s'', n, e') => .next (s'', n + 1, e')
        | .fault f => .fault f
        | .refused r => .refused r
      else .next (s', 1, e)
    | .fault f => .fault f
    | .refused r => .refused r

/-! ### The meanings -/

/-- `RX.PUSH b` (R120). -/
def execRxPush (b : Byte) (s : State) : Host.Outcome State Fault Refusal := deliver (pushByte b s)

/-- `PPP.DECODE d` (R136): pure. -/
def execPppDecode (d : List Byte) (s : State) : Host.Outcome State Fault Refusal :=
  answer (decodeResult (pppDecode d)) s

/-- `ESC.UNSTUFF s` (R137): refused outside its precondition. -/
def execEscUnstuff (bytes : List Byte) (s : State) : Host.Outcome State Fault Refusal :=
  if unstuffOk bytes then answer (.bytes (unstuff bytes)) s else .refused .unstuffPrecondition

/-- A transition row runs when it is the row that R120 selects: the reader is in the row's state and
the byte is of the row's class. -/
def onRow (selected : Bool) (o : Host.Outcome (State × Event) Fault Refusal) :
    Host.Outcome State Fault Refusal :=
  if selected then deliver o else .refused .rowNotSelected

/-- `RX.PUSH@Idle.FLAG` (R122). -/
def execRxIdleFlag (s : State) : Host.Outcome State Fault Refusal :=
  onRow (s.rxState == .idle) (idleFlag s)

/-- `RX.PUSH@Idle.ESC` (R123). -/
def execRxIdleEsc (s : State) : Host.Outcome State Fault Refusal :=
  onRow (s.rxState == .idle) (idleEsc s)

/-- `RX.PUSH@Idle.DATA` (R124). -/
def execRxIdleData (b : Byte) (s : State) : Host.Outcome State Fault Refusal :=
  onRow (s.rxState == .idle && classify b == .data) (idleData b s)

/-- `RX.PUSH@FrameStart.FLAG` (R125). -/
def execRxFrameStartFlag (s : State) : Host.Outcome State Fault Refusal :=
  onRow (s.rxState == .frameStart) (frameStartFlag s)

/-- `RX.PUSH@FrameStart.ESC` (R126). -/
def execRxFrameStartEsc (s : State) : Host.Outcome State Fault Refusal :=
  onRow (s.rxState == .frameStart) (frameStartEsc s)

/-- `RX.PUSH@FrameStart.DATA` (R127). -/
def execRxFrameStartData (b : Byte) (s : State) : Host.Outcome State Fault Refusal :=
  onRow (s.rxState == .frameStart && classify b == .data) (frameStartData b s)

/-- `RX.PUSH@InFrame.FLAG` (R128). -/
def execRxInFrameFlag (s : State) : Host.Outcome State Fault Refusal :=
  onRow (s.rxState == .inFrame) (inFrameFlag s)

/-- `RX.PUSH@InFrame.ESC` (R129). -/
def execRxInFrameEsc (s : State) : Host.Outcome State Fault Refusal :=
  onRow (s.rxState == .inFrame) (inFrameEsc s)

/-- `RX.PUSH@InFrame.DATA` (R130). -/
def execRxInFrameData (b : Byte) (s : State) : Host.Outcome State Fault Refusal :=
  onRow (s.rxState == .inFrame && classify b == .data) (inFrameData b s)

/-- `RX.PUSH@InFrameEscape.FLAG` (R131). -/
def execRxInFrameEscapeFlag (s : State) : Host.Outcome State Fault Refusal :=
  onRow (s.rxState == .inFrameEscape) (inFrameEscapeFlag s)

/-- `RX.PUSH@InFrameEscape.ESC` (R132). -/
def execRxInFrameEscapeEsc (s : State) : Host.Outcome State Fault Refusal :=
  onRow (s.rxState == .inFrameEscape) (inFrameEscapeEsc s)

/-- `RX.PUSH@InFrameEscape.DATA` (R133). -/
def execRxInFrameEscapeData (b : Byte) (s : State) : Host.Outcome State Fault Refusal :=
  onRow (s.rxState == .inFrameEscape && classify b == .data) (inFrameEscapeData b s)

end Sys2Proof.Machine
end

