-- ==== Sys2Proof/Machine/Layout.lean ====
section
/-! DEFINITION. The layout rows of spec/opcode_table.json (spec/30_encoding.md R52, R54, R56, R58, R59,
R68 group 3): what the unit that meets bytes of that layout makes of them (logs 13, 14). -/

namespace Sys2Proof.Machine

/-- `ESCAPE.PAIR`: the wire bytes `7D b` reach the reader (R52), which takes them one after the other
(R126, R129, R131 to R133); in a frame the byte stored is `b ^ 0x20`. Log 14. -/
def execEscapePair (b : Byte) (s : State) : Host.Outcome State Fault Refusal :=
  match deliver (pushByte Config.esc s) with
  | .next s' => deliver (pushByte b s')
  | .fault f => .fault f
  | .refused r => .refused r

/-- `HEADER.FULL` (R54): `FF 03 ph pl`, Protocol `be16(ph, pl)` with bit 0 of `ph` clear. -/
def execHeaderFull (p : BitVec 7) (q : Byte) (body : List Byte) (s : State) :
    Host.Outcome State Fault Refusal :=
  answer (.frame (frameOf (be16 (evenByte p) q) body)) s

/-- `HEADER.PFC` (R54): `FF 03 p`, Protocol `zext_16(p)` with bit 0 of `p` set. -/
def execHeaderPfc (p : BitVec 7) (body : List Byte) (s : State) :
    Host.Outcome State Fault Refusal :=
  answer (.frame (frameOf (zext16 (oddByte p)) body)) s

/-- `HEADER.ACFC_PFC` (R54): `p` odd and not `FF`, Protocol `zext_16(p)`, Address and Control implied. -/
def execHeaderAcfcPfc (p : BitVec 7) (body : List Byte) (s : State) :
    Host.Outcome State Fault Refusal :=
  if oddByte p = Config.addr then .refused .rowNotSelected
  else answer (.frame (frameOf (zext16 (oddByte p)) body)) s

/-- `FCS.FIELD` (R56): low byte first; as a number it is `be16(high, low)`. -/
def execFcsField (low high : Byte) (s : State) : Host.Outcome State Fault Refusal :=
  answer (.fcs (be16 high low) low high) s

/-- `OPTION.TLV` (R58, R160): the option at the front of `t, l, tail`, or `Malformed`. -/
def execOptionTlv (t l : Byte) (tail : List Byte) (s : State) : Host.Outcome State Fault Refusal :=
  answer (nextResult (optNext (t :: l :: tail))) s

/-- The body of a control packet and the bytes beyond it (R59, R65): the packet ends `len` bytes after
it starts. An inconsistent `len` leaves no body, which the host judges (R64); bytes beyond `len` are
handed on, neither dropped nor judged (91 N17). Log 22. -/
def packetResult (code id : Byte) (len : Half) (tail : List Byte) : Result :=
  match splitCounted 4 len.toNat tail with
  | some (body, beyond) => .packet code id len (some body) beyond
  | none => .packet code id len none tail

/-- `CONTROL.PACKET` (R59): the fields at their offsets and the body up to `len` (log 13). -/
def execControlPacket (code id : Byte) (len : Half) (tail : List Byte) (s : State) :
    Host.Outcome State Fault Refusal :=
  answer (packetResult code id len tail) s

end Sys2Proof.Machine
end

