-- ==== Sys2Proof/Machine/Writer.lean ====
section
/-! DEFINITION. TXU, the frame writer (spec/41_frame_writer.md): `ESC.NEEDS`, `ESC.ENC`, `ESC.STUFF`,
`PPP.ENCODE`, `TX.WRITE`. Pure functions of their operands and of `TX_ACCM`. -/

namespace Sys2Proof.Machine

/-- `ESC.ENC` (R101, R52). -/
def escEnc (accm : BitVec 32) (b : Byte) : List Byte :=
  if escNeeds accm b then [Config.esc, b ^^^ Config.xorMask] else [b]

/-- `ESC.STUFF` (R102). -/
def escStuff (accm : BitVec 32) : List Byte → List Byte
  | [] => []
  | b :: s => escEnc accm b ++ escStuff accm s

/-- `PPP.ENCODE` (R103): the frame content without its FCS, in the full form always (R105). -/
def pppEncode (protocol : Half) (payload : List Byte) : List Byte :=
  [Config.addr, Config.ctrl, hi8 protocol, lo8 protocol] ++ payload

/-- The whole frame content (R53): what R103 builds, then the FCS over it, low byte first (R56). -/
def frameContent (protocol : Half) (payload : List Byte) : List Byte :=
  let c := pppEncode protocol payload
  c ++ [(fcsOf c).2.1, (fcsOf c).2.2]

/-- `TX.WRITE` (R104): the content, escaped, between two flags that are never escaped (R51). -/
def txWrite (accm : BitVec 32) (protocol : Half) (payload : List Byte) : List Byte :=
  [Config.flag] ++ escStuff accm (frameContent protocol payload) ++ [Config.flag]

/-- `ESC.NEEDS b` (R100). -/
def execEscNeeds (b : Byte) (s : State) : Host.Outcome State Fault Refusal :=
  answer (.truth (escNeeds s.txAccm b)) s

/-- `ESC.ENC b` (R101). -/
def execEscEnc (b : Byte) (s : State) : Host.Outcome State Fault Refusal :=
  answer (.bytes (escEnc s.txAccm b)) s

/-- `ESC.STUFF s` (R102). -/
def execEscStuff (bytes : List Byte) (s : State) : Host.Outcome State Fault Refusal :=
  answer (.bytes (escStuff s.txAccm bytes)) s

/-- `PPP.ENCODE protocol, payload` (R103). -/
def execPppEncode (protocol : Half) (payload : List Byte) (s : State) :
    Host.Outcome State Fault Refusal :=
  answer (.bytes (pppEncode protocol payload)) s

/-- `TX.WRITE protocol, payload` (R104); it cannot fail and takes a payload of any length (log 19). -/
def execTxWrite (protocol : Half) (payload : List Byte) (s : State) :
    Host.Outcome State Fault Refusal :=
  answer (.bytes (txWrite s.txAccm protocol payload)) s

end Sys2Proof.Machine
end

