-- ==== Sys2Proof/Machine/Dispatch.lean ====
section
/-! DEFINITION. Which meaning each instruction has: one arm per constructor of `Instr`. -/

namespace Sys2Proof.Machine

def exec (i : Instr) (s : State) : Host.Outcome State Fault Refusal :=
  match i with
  -- FCSU
  | .fcsInit => Sys2Proof.Machine.execFcsInit s
  | .fcsUpdate acc b => Sys2Proof.Machine.execFcsUpdate acc b s
  | .fcsRun acc bytes => Sys2Proof.Machine.execFcsRun acc bytes s
  | .fcsFinal acc => Sys2Proof.Machine.execFcsFinal acc s
  | .fcsCheck acc => Sys2Proof.Machine.execFcsCheck acc s
  -- TXU
  | .escNeeds b => Sys2Proof.Machine.execEscNeeds b s
  | .escEnc b => Sys2Proof.Machine.execEscEnc b s
  | .escStuff bytes => Sys2Proof.Machine.execEscStuff bytes s
  | .pppEncode protocol payload => Sys2Proof.Machine.execPppEncode protocol payload s
  | .txWrite protocol payload => Sys2Proof.Machine.execTxWrite protocol payload s
  -- RXU
  | .rxPush b => Sys2Proof.Machine.execRxPush b s
  | .pppDecode d => Sys2Proof.Machine.execPppDecode d s
  | .escUnstuff bytes => Sys2Proof.Machine.execEscUnstuff bytes s
  -- OPTU
  | .optNext bytes => Sys2Proof.Machine.execOptNext bytes s
  | .optParse bytes => Sys2Proof.Machine.execOptParse bytes s
  | .optPut buf cap t value => Sys2Proof.Machine.execOptPut buf cap t value s
  | .optEmit cap list => Sys2Proof.Machine.execOptEmit cap list s
  -- the reader's transitions
  | .rxIdleFlag => Sys2Proof.Machine.execRxIdleFlag s
  | .rxIdleEsc => Sys2Proof.Machine.execRxIdleEsc s
  | .rxIdleData b => Sys2Proof.Machine.execRxIdleData b s
  | .rxFrameStartFlag => Sys2Proof.Machine.execRxFrameStartFlag s
  | .rxFrameStartEsc => Sys2Proof.Machine.execRxFrameStartEsc s
  | .rxFrameStartData b => Sys2Proof.Machine.execRxFrameStartData b s
  | .rxInFrameFlag => Sys2Proof.Machine.execRxInFrameFlag s
  | .rxInFrameEsc => Sys2Proof.Machine.execRxInFrameEsc s
  | .rxInFrameData b => Sys2Proof.Machine.execRxInFrameData b s
  | .rxInFrameEscapeFlag => Sys2Proof.Machine.execRxInFrameEscapeFlag s
  | .rxInFrameEscapeEsc => Sys2Proof.Machine.execRxInFrameEscapeEsc s
  | .rxInFrameEscapeData b => Sys2Proof.Machine.execRxInFrameEscapeData b s
  -- the layouts
  | .escapePair b => Sys2Proof.Machine.execEscapePair b s
  | .headerFull p q body => Sys2Proof.Machine.execHeaderFull p q body s
  | .headerPfc p body => Sys2Proof.Machine.execHeaderPfc p body s
  | .headerAcfcPfc p body => Sys2Proof.Machine.execHeaderAcfcPfc p body s
  | .fcsField low high => Sys2Proof.Machine.execFcsField low high s
  | .optionTlv t l tail => Sys2Proof.Machine.execOptionTlv t l tail s
  | .controlPacket code id len tail => Sys2Proof.Machine.execControlPacket code id len tail s

end Sys2Proof.Machine
end

