-- ==== Sys2Proof/Machine/Fetch.lean ====
section
/-! DEFINITION. How the host's next operation is taken (spec/00_scope.md R5, R6; log 1): the format
its bytes are read under, and how an operation of a given format is issued. -/

namespace Sys2Proof.Machine

/-- The format the bytes on a channel are read under: a line byte is a row of the reader's present
state, `wire-byte@<state>` (R50, R68); the other channels have one format each. -/
def channelFormat (st : RxState) : Channel → Format
  | .op => .op
  | .line => .wireByte st
  | .wirePair => .wirePair
  | .header => .header
  | .trailer => .trailer
  | .tlv => .tlv
  | .packet => .packet

/-- The channel on which bytes of a format are issued. -/
def formatChannel : Format → Channel
  | .op => .op
  | .wireByte _ => .line
  | .wirePair => .wirePair
  | .header => .header
  | .trailer => .trailer
  | .tlv => .tlv
  | .packet => .packet

/-- Taking the next operation: what it decodes to in the reader's present state. -/
def fetch (it : Issue) (s : State) : Except DecodeError Instr :=
  decode (channelFormat s.rxState it.channel) it.bytes

/-- Puts an operation in front of all others. A row of the reader's state needs the reader in that
state to be the row that is met; nothing else changes. -/
def State.issueFirst (s : State) (f : Format) (bytes : List Byte) : State :=
  match f with
  | .wireByte st =>
    { s with rxState := st, pending := { channel := .line, bytes := bytes } :: s.pending }
  | _ => { s with pending := { channel := formatChannel f, bytes := bytes } :: s.pending }

/-- The operations `RX.FEEDALL bytes` expands to (R67, R138): one `RX.PUSH` per byte, in order. -/
def feedIssues (bytes : List Byte) : List Issue :=
  bytes.map fun b => { channel := .op, bytes := [0x20, b] }

end Sys2Proof.Machine
end

