-- ==== Sys2Proof/Machine/Step.lean ====
section
/-! DEFINITION. One step: the oldest operation the host has issued runs to completion
(spec/00_scope.md R5, spec/20_memory.md R38). With none issued the block waits: it executes nothing on
its own (spec/70_reset_and_hazards.md R251). Logs 1 and 6. -/

namespace Sys2Proof.Machine

/-- One atomic operation of the block, taken from the front of `pending`. -/
def step (s : State) : Host.Outcome State Fault Refusal :=
  match s.pending with
  | [] => .next s
  | it :: rest =>
    match fetch it s with
    | .ok i => exec i { s with pending := rest }
    | .error e => .refused (.undecodable e)

/-- The state with the operation that a word of the opcode table stands for issued first, so that the
next step runs it (log 6). For a width that stands for nothing an empty operation is issued, which the
step refuses. -/
def State.withFetchWord (s : State) (nbits w : Nat) : State :=
  match tableItem nbits w with
  | some (f, bytes) => s.issueFirst f bytes
  | none => s.issueFirst .op []

end Sys2Proof.Machine
end

