-- ==== Sys2Proof/Machine/Formats.lean ====
section
/-! DEFINITION. The number spaces carried in frames (spec/30_encoding.md R57, R59, R60, R61), as named
data. The block treats all of them as opaque (R57, R108, R166): no meaning reads this file. -/

namespace Sys2Proof.Machine

/-- The protocols the document names (R57). -/
inductive Protocol where
  | lcp
  | pap
  | ipcp
  | ipv4
  deriving DecidableEq, Repr

/-- Their numbers (R57). -/
def Protocol.number : Protocol → Half
  | .lcp => 0xC021
  | .pap => 0xC023
  | .ipcp => 0x8021
  | .ipv4 => 0x0021

/-- The control packet codes (R59). -/
inductive ControlCode where
  | configureRequest
  | configureAck
  | configureNak
  | configureReject
  | terminateRequest
  | terminateAck
  | codeReject
  | protocolReject
  | echoRequest
  | echoReply
  | discardRequest
  deriving DecidableEq, Repr

/-- Their numbers (R59). -/
def ControlCode.number : ControlCode → Byte
  | .configureRequest => 1
  | .configureAck => 2
  | .configureNak => 3
  | .configureReject => 4
  | .terminateRequest => 5
  | .terminateAck => 6
  | .codeReject => 7
  | .protocolReject => 8
  | .echoRequest => 9
  | .echoReply => 10
  | .discardRequest => 11

/-- The option types of the LCP vocabulary (R60). -/
inductive LcpOption where
  | mru
  | authProtocol
  | magicNumber
  | protocolFieldCompression
  | addressAndControlFieldCompression
  deriving DecidableEq, Repr

/-- Type byte and least option length; the length is exact but for `authProtocol` (R60). -/
def LcpOption.typeAndLength : LcpOption → Byte × Nat
  | .mru => (1, 4)
  | .authProtocol => (3, 4)
  | .magicNumber => (5, 6)
  | .protocolFieldCompression => (7, 2)
  | .addressAndControlFieldCompression => (8, 2)

/-- The option types of the IPCP vocabulary (R61). -/
inductive IpcpOption where
  | ipAddress
  | primaryDns
  | secondaryDns
  deriving DecidableEq, Repr

/-- Type byte and option length (R61). -/
def IpcpOption.typeAndLength : IpcpOption → Byte × Nat
  | .ipAddress => (3, 6)
  | .primaryDns => (129, 6)
  | .secondaryDns => (131, 6)

/-- A `u16` option value, high byte first (R165). -/
def optionU16 (a b : Byte) : Half := be16 a b

/-- A `u32` option value, high byte first (R165). -/
def optionU32 (a b c d : Byte) : BitVec 32 := be32 a b c d

end Sys2Proof.Machine
end

