-- ==== Sys2Proof/Safety.lean ====
section
/-! DEFINITION. The terms claims are stated in: what a state of the block always meets
(spec/10_state.md R13), what an operation leaves unchanged, what the reader's two shared procedures
do to the state (spec/42_frame_reader.md R134, R135), and the spec's formats as relations. -/

namespace Sys2Proof.Machine

/-- What every state of a run meets: R13, the capacity R4 asks for, the hardwired map R15, and the
form of the memory, whose bytes below `rx_len` have all been written (R12). -/
structure State.Inv (s : State) : Prop where
  /-- `RX_CAP ≥ MIN_FRAME` (R4). -/
  cap : Config.minFrame ≤ s.cfg.rxCap
  /-- `TX_ACCM` is hardwired (R15). -/
  accm : s.txAccm = Config.txAccm
  /-- The memory is in its one form. -/
  memForm : s.rxBuf.wf = true
  /-- No byte is stored outside `0..RX_CAP-1` (R36). -/
  memInside : ∀ c ∈ s.rxBuf, c.1 < s.cfg.rxCap
  /-- Every byte of the frame being assembled has been written (R12). -/
  memWritten : ∀ a < s.rxLen, (s.rxBuf.read? a).isSome = true
  /-- `rx_len ≤ RX_CAP` (R13). -/
  lenCap : s.rxLen ≤ s.cfg.rxCap
  /-- `Idle` implies `rx_len = 0` (R13). -/
  idleLen : s.rxState = .idle → s.rxLen = 0
  /-- `FrameStart` implies `rx_len = 0` (R13). -/
  frameStartLen : s.rxState = .frameStart → s.rxLen = 0
  /-- `InFrame` implies `rx_len ≥ 1` (R13). -/
  inFrameLen : s.rxState = .inFrame → 1 ≤ s.rxLen

/-- Everything is as before but `rx_state`, `rx_len`, `fcs_err_cnt`, `rx_buf` with the count that picks
its free values, and the results. -/
structure SameRest (s t : State) : Prop where
  accm : t.txAccm = s.txAccm
  cfg : t.cfg = s.cfg
  pending : t.pending = s.pending

/-- Every byte of `rx_buf` outside the listed indices reads as before. -/
def SameBytesBut (stored : List Nat) (s t : State) : Prop :=
  ∀ a, a ∉ stored → t.rxByte a = s.rxByte a

/-- `rx_state`, `rx_len`, `fcs_err_cnt` take these values, the rest but the buffer is as before, and one
result is handed out. -/
structure Became (s t : State) (st : RxState) (len cnt : Nat) (r : Result) : Prop where
  rxState : t.rxState = st
  rxLen : t.rxLen = len
  fcsErrCnt : t.fcsErrCnt = cnt
  rest : SameRest s t
  results : t.results = s.results ++ [r]

/-- `Append(v)` succeeded (R134): `v` is at `rx_buf[rx_len]`, nothing else in the buffer changed. -/
def Appended (s : State) (v : Byte) (t : State) : Prop :=
  Became s t .inFrame (s.rxLen + 1) s.fcsErrCnt (.event .none) ∧
  t.rxByte s.rxLen = v ∧ SameBytesBut [s.rxLen] s t

/-- `Append` overflowed (R134): the frame is dropped and the event says so. No byte of `rx_buf` belongs
to a frame any more and all of it is unspecified (93 U9), so nothing is said of it. -/
def Overflowed (s t : State) : Prop :=
  Became s t .idle 0 s.fcsErrCnt (.event .frameTooLong)

/-- A frame ended (R135): the reader is in `FrameStart` with nothing stored. All of `rx_buf` is
unspecified after it (93 U9), so nothing is said of it. -/
def FrameEnded (s t : State) (cnt : Nat) (e : Event) : Prop :=
  Became s t .frameStart 0 cnt (.event e)

/-- The reader only changed state, with event `None`; no byte of the buffer changed. -/
def Moved (s t : State) (st : RxState) : Prop :=
  Became s t st s.rxLen s.fcsErrCnt (.event .none) ∧ SameBytesBut [] s t

/-- The content at a closing flag, `rx_buf[0..rx_len)` (R135). -/
def State.content (s : State) : List Byte := (List.range s.rxLen).map s.rxByte

/-- Two states of one block that differ at most in bytes of `rx_buf` outside the frame being assembled
(R12, 93 U9) and in the count that picks their free values. -/
structure SameButStaleBytes (s t : State) : Prop where
  rxState : t.rxState = s.rxState
  rxLen : t.rxLen = s.rxLen
  fcsErrCnt : t.fcsErrCnt = s.fcsErrCnt
  rest : SameRest s t
  results : t.results = s.results
  content : ∀ a < s.rxLen, t.rxByte a = s.rxByte a

end Sys2Proof.Machine

namespace Sys2Proof

/-- The instructions of the units that hold no state, and the reader's pure ones (R7, R10): all but
`RX.PUSH`, its twelve rows, and `ESCAPE.PAIR`. -/
def Instr.isPure : Instr → Bool
  | .fcsInit => true
  | .fcsUpdate _ _ => true
  | .fcsRun _ _ => true
  | .fcsFinal _ => true
  | .fcsCheck _ => true
  | .escNeeds _ => true
  | .escEnc _ => true
  | .escStuff _ => true
  | .pppEncode _ _ => true
  | .txWrite _ _ => true
  | .rxPush _ => false
  | .pppDecode _ => true
  | .escUnstuff _ => true
  | .optNext _ => true
  | .optParse _ => true
  | .optPut _ _ _ _ => true
  | .optEmit _ _ => true
  | .rxIdleFlag => false
  | .rxIdleEsc => false
  | .rxIdleData _ => false
  | .rxFrameStartFlag => false
  | .rxFrameStartEsc => false
  | .rxFrameStartData _ => false
  | .rxInFrameFlag => false
  | .rxInFrameEsc => false
  | .rxInFrameData _ => false
  | .rxInFrameEscapeFlag => false
  | .rxInFrameEscapeEsc => false
  | .rxInFrameEscapeData _ => false
  | .escapePair _ => false
  | .headerFull _ _ _ => true
  | .headerPfc _ _ => true
  | .headerAcfcPfc _ _ => true
  | .fcsField _ _ => true
  | .optionTlv _ _ _ => true
  | .controlPacket _ _ _ _ => true

/-- The twelve rows `RX.PUSH@<state>.<class>` (R139). -/
def Instr.isTransition : Instr → Bool
  | .rxIdleFlag => true
  | .rxIdleEsc => true
  | .rxIdleData _ => true
  | .rxFrameStartFlag => true
  | .rxFrameStartEsc => true
  | .rxFrameStartData _ => true
  | .rxInFrameFlag => true
  | .rxInFrameEsc => true
  | .rxInFrameData _ => true
  | .rxInFrameEscapeFlag => true
  | .rxInFrameEscapeEsc => true
  | .rxInFrameEscapeData _ => true
  | .fcsInit => false
  | .fcsUpdate _ _ => false
  | .fcsRun _ _ => false
  | .fcsFinal _ => false
  | .fcsCheck _ => false
  | .escNeeds _ => false
  | .escEnc _ => false
  | .escStuff _ => false
  | .pppEncode _ _ => false
  | .txWrite _ _ => false
  | .rxPush _ => false
  | .pppDecode _ => false
  | .escUnstuff _ => false
  | .optNext _ => false
  | .optParse _ => false
  | .optPut _ _ _ _ => false
  | .optEmit _ _ => false
  | .escapePair _ => false
  | .headerFull _ _ _ => false
  | .headerPfc _ _ => false
  | .headerAcfcPfc _ _ => false
  | .fcsField _ _ => false
  | .optionTlv _ _ _ => false
  | .controlPacket _ _ _ _ => false

/-- The operation numbers of R62's table. -/
def assignedOps : List Nat :=
  [0x00, 0x01, 0x02, 0x03, 0x04, 0x10, 0x11, 0x12, 0x13, 0x14, 0x20, 0x21, 0x22, 0x30, 0x31, 0x32, 0x33]

/-- How many results an instruction hands out: an escape pair is two bytes pushed (log 14). -/
def Instr.resultCount : Instr → Nat
  | .escapePair _ => 2
  | _ => 1

end Sys2Proof

namespace Sys2Proof.Machine

/-- `x` is a stuffed sequence that stands for `out` (R52, R137): `7D c` for `c ^ 0x20`, any byte but
`7D` and `7E` for itself, end to end. -/
inductive Unstuffs : List Byte → List Byte → Prop where
  | nil : Unstuffs [] []
  | pair (c : Byte) {x out : List Byte} (h : Unstuffs x out) :
      Unstuffs (0x7D :: c :: x) ((c ^^^ 0x20) :: out)
  | plain (b : Byte) {x out : List Byte} (hesc : b ≠ 0x7D) (hflag : b ≠ 0x7E)
      (h : Unstuffs x out) : Unstuffs (b :: x) (b :: out)

/-- The bytes of an option list: options end to end, each `type, 2 + |value|, value` (R58). -/
def optionLayout : List TlvOption → List Byte
  | [] => []
  | o :: os => o.type :: BitVec.ofNat 8 (2 + o.value.length) :: (o.value ++ optionLayout os)

/-- Every value fits the one-byte length (R58, R163). -/
def ValuesFit (l : List TlvOption) : Prop := ∀ o ∈ l, o.value.length ≤ 253

end Sys2Proof.Machine
end

