-- ==== Sys2Proof/Certificates/Slice0/Obligations.lean ====
section
/-! DEFINITION. The statements for the provers. Each docstring names the rule of spec/ it formalises.
After a frame has ended or was dropped all of `rx_buf` is unspecified (93 U9; free values, log 10), so no
statement says what it reads there. -/

open Sys2Proof Sys2Proof.Machine

/-! ### Reset, step, decoding -/

/-- R22: what reset leaves, for a block built with any parameters; "every byte of `rx_buf` unspecified"
is the free value of the byte (log 9). -/
def Obligations.ResetLeavesTheSpecValues : Prop :=
  ∀ cfg : Config,
    (State.resetWith cfg).rxState = .idle ∧ (State.resetWith cfg).rxLen = 0 ∧
    (State.resetWith cfg).fcsErrCnt = 0 ∧ (State.resetWith cfg).txAccm = 0xFFFFFFFF ∧
    (∀ a, (State.resetWith cfg).rxByte a = Config.unspecifiedRxByte 0 a)

/-- R13 and R22: the reset state of every build with `RX_CAP ≥ 4` meets the invariant; the reset state
itself is that of the build with `RX_CAP = 1506` (the spec's decision D3 in R4, log 7), with no operation
issued and no result handed out (the model's own fields, logs 1 and 2). -/
def Obligations.ResetMeetsInvariant : Prop :=
  (∀ cfg : Config, 4 ≤ cfg.rxCap → (State.resetWith cfg).Inv) ∧
  State.reset = State.resetWith { rxCap := 1506 } ∧ State.reset.pending = [] ∧
  State.reset.results = []

/-- R13 (marked by the spec as its own inference), R15, R36: every step from any state that meets the
invariant gives one that meets it. -/
def Obligations.StepKeepsInvariant : Prop :=
  ∀ s t : State, s.Inv → step s = .next t → t.Inv

/-- R5, R38, R251: a step is the oldest operation issued, run once; with none issued the block waits.
That the bytes are decoded under the format of their channel, and a line byte in the reader's present
state, is the model's reading of R50 and R68 (log 4); that bytes which decode to nothing are refused
follows R62, R64 and R234 for an unassigned number and is the model's choice for the rest (logs 3, 4).
The queue is the model's (logs 1 and 6). -/
def Obligations.StepRunsDecodedInstruction : Prop :=
  (∀ (s : State) (it : Issue) (rest : List Issue) (i : Instr),
    s.pending = it :: rest → decode (channelFormat s.rxState it.channel) it.bytes = .ok i →
      step s = exec i { s with pending := rest }) ∧
  (∀ (s : State) (it : Issue) (rest : List Issue) (e : DecodeError),
    s.pending = it :: rest → decode (channelFormat s.rxState it.channel) it.bytes = .error e →
      step s = .refused (.undecodable e)) ∧
  (∀ s : State, s.pending = [] → step s = .next s)

/-- R50, R52, R54, R56, R58, R59, R62: decoding the bytes an instruction is encoded in gives it back,
for every well-formed instruction, whatever its operands. The operand bytes of a numbered operation
are the model's (log 3). -/
def Obligations.DecodeInvertsEncode : Prop :=
  ∀ i : Instr, i.WellFormed → decode (encode i).1 (encode i).2 = .ok i

/-- The other direction: bytes that decode under a format decode to a well-formed instruction, and are
the bytes it is encoded in, so no two byte sequences of a format mean the same. Logs 3 and 4. -/
def Obligations.DecodedBytesAreTheEncoding : Prop :=
  ∀ (f : Format) (bytes : List Byte) (i : Instr),
    decode f bytes = .ok i → i.WellFormed ∧ encode i = (f, bytes)

/-- R62, R50, R54, R58: bytes written out from the spec's encodings, one or more for each family
(operand bytes by log 3). -/
def Obligations.WrittenOutWordsDecode : Prop :=
  decode .op [0x00] = .ok .fcsInit ∧
  decode .op [0x01, 0xFF, 0xFE, 0x21] = .ok (.fcsUpdate 0xFFFE 0x21) ∧
  decode .op [0x14, 0xC0, 0x21] = .ok (.txWrite 0xC021 []) ∧
  decode .op [0x20, 0x7D] = .ok (.rxPush 0x7D) ∧
  decode .op [0x30, 0x05, 0x02] = .ok (.optNext [0x05, 0x02]) ∧
  decode (.wireByte .inFrame) [0x7E] = .ok .rxInFrameFlag ∧
  decode (.wireByte .inFrameEscape) [0x41] = .ok (.rxInFrameEscapeData 0x41) ∧
  decode .wirePair [0x7D, 0x5E] = .ok (.escapePair 0x5E) ∧
  decode .header [0xFF, 0x03, 0xC0, 0x21] = .ok (.headerFull 0x60 0x21 []) ∧
  decode .header [0xFF, 0x03, 0x21, 0x45] = .ok (.headerPfc 0x10 [0x45]) ∧
  decode .header [0x21, 0x45] = .ok (.headerAcfcPfc 0x10 [0x45]) ∧
  decode .trailer [0x49, 0x2C] = .ok (.fcsField 0x49 0x2C) ∧
  decode .tlv [0x05, 0x02] = .ok (.optionTlv 0x05 0x02 []) ∧
  decode .packet [0x01, 0x07, 0x00, 0x04] = .ok (.controlPacket 0x01 0x07 0x0004 [])

/-- R62, R64: an operation number outside the table is refused, whatever follows it. -/
def Obligations.UnassignedOperationsAreRefused : Prop :=
  ∀ (s : State) (op : Byte) (args : List Byte) (rest : List Issue),
    op.toNat ∉ assignedOps →
    s.pending = { channel := .op, bytes := op :: args } :: rest →
      step s = .refused (.undecodable (.unassignedOp op))

/-! ### FCSU -/

/-- R81. -/
def Obligations.FcsInitReturnsAllOnes : Prop :=
  ∀ s : State, exec .fcsInit s = .next (s.emit (.acc 0xFFFF))

/-- R82's loop, eight rounds written out, and its corner cases. -/
def Obligations.FcsUpdateRunsEightRounds : Prop :=
  ∀ (s : State) (acc : Half) (b : Byte),
    (let round : Half → Half := fun v => if v.getLsbD 0 then (v >>> 1) ^^^ 0x8408 else v >>> 1
     exec (.fcsUpdate acc b) s =
       .next (s.emit (.acc (round (round (round (round (round (round (round (round
         (acc ^^^ b.setWidth 16)))))))))))) ∧
    fcsUpdate 0x0000 0x00 = 0x0000 ∧ fcsUpdate 0x0000 0x01 = 0x1189 ∧
    fcsUpdate 0x0000 0x80 = 0x8408 ∧ fcsUpdate 0xFFFF 0x00 = 0x0F87 ∧
    fcsUpdate 0xFFFF 0xFF = 0x00FF

/-- R83: on all `65536 * 256` inputs `FCS.UPDATE` is the table form with the 256 entries as R83 lists
them. -/
def Obligations.FcsUpdateEqualsTableForm : Prop :=
  ∀ (s : State) (acc : Half) (b : Byte),
    exec (.fcsUpdate acc b) s =
      .next (s.emit (.acc ((acc >>> 8) ^^^
        fcsTable.getD ((acc ^^^ b.setWidth 16).extractLsb' 0 8).toNat 0)))

/-- R84: `FCS.RUN` over no bytes, byte after byte from the front, and in two parts. -/
def Obligations.FcsRunFoldsUpdate : Prop :=
  ∀ (s : State) (acc : Half),
    exec (.fcsRun acc []) s = .next (s.emit (.acc acc)) ∧
    (∀ (b : Byte) (x : List Byte),
      exec (.fcsRun acc (b :: x)) s = .next (s.emit (.acc (fcsRun (fcsUpdate acc b) x)))) ∧
    (∀ x y : List Byte,
      exec (.fcsRun acc (x ++ y)) s = .next (s.emit (.acc (fcsRun (fcsRun acc x) y))))

/-- R85 and R87: `FCS.FINAL` complements and splits low byte and high byte; `FCS.CHECK` compares the
raw accumulator; `FCS.OF` is `FCS.FINAL` of `FCS.RUN` from `0xFFFF`. -/
def Obligations.FcsFinalAndCheckResults : Prop :=
  ∀ (s : State) (acc : Half),
    exec (.fcsFinal acc) s = .next (s.emit (.fcs (acc ^^^ 0xFFFF)
      ((acc ^^^ 0xFFFF).extractLsb' 0 8) ((acc ^^^ 0xFFFF).extractLsb' 8 8))) ∧
    exec (.fcsCheck acc) s = .next (s.emit (.truth (decide (acc = 0xF0B8)))) ∧
    (∀ x : List Byte, fcsOf x = (fcsRun 0xFFFF x ^^^ 0xFFFF,
      (fcsRun 0xFFFF x ^^^ 0xFFFF).extractLsb' 0 8, (fcsRun 0xFFFF x ^^^ 0xFFFF).extractLsb' 8 8))

/-- R88, the residue property. -/
def Obligations.FcsResidueOfEveryContent : Prop :=
  ∀ (c : List Byte) (fcs : Half) (low high : Byte),
    fcsOf c = (fcs, low, high) → fcsRun 0xFFFF (c ++ [low, high]) = 0xF0B8

/-- R82, R84, R87: a content that checks no longer checks when any one byte of it is changed. R89 and 93
G2 say so of a single bit (general knowledge in the spec), and R89 promises no wider detection: that it
holds of a whole byte is the model's own inference from the loop. -/
def Obligations.SingleByteErrorsAreDetected : Prop :=
  ∀ (s : State) (x y : List Byte) (b d : Byte), d ≠ 0 →
    fcsRun 0xFFFF (x ++ b :: y) = 0xF0B8 →
      exec (.fcsCheck (fcsRun 0xFFFF (x ++ (b ^^^ d) :: y))) s = .next (s.emit (.truth false))

/-! ### TXU -/

/-- R100, for every transmit map (only the all-ones map is the source's, U3), and with the all-ones map
exactly the bytes below `0x20` and the two specials. -/
def Obligations.EscNeedsPredicate : Prop :=
  ∀ (s : State) (b : Byte),
    exec (.escNeeds b) s = .next (s.emit (.truth (decide
      (b = 0x7E ∨ b = 0x7D ∨ (b.toNat < 0x20 ∧ s.txAccm.getLsbD b.toNat = true))))) ∧
    (s.txAccm = 0xFFFFFFFF →
      exec (.escNeeds b) s = .next (s.emit (.truth (decide
        (b.toNat < 0x20 ∨ b = 0x7D ∨ b = 0x7E)))))

/-- R101: the pair or the byte itself; the result never holds `7E`, nor is a pair's second byte `7D`. -/
def Obligations.EscEncResult : Prop :=
  ∀ (s : State) (b : Byte),
    ∃ r : List Byte, exec (.escEnc b) s = .next (s.emit (.bytes r)) ∧
      (exec (.escNeeds b) s = .next (s.emit (.truth true)) → r = [0x7D, b ^^^ 0x20]) ∧
      (exec (.escNeeds b) s = .next (s.emit (.truth false)) → r = [b]) ∧
      (0x7E : Byte) ∉ r ∧ (0x7D : Byte) ∉ r.tail

/-- R102: byte by byte, in order; the length bounds; each byte is treated alone. -/
def Obligations.EscStuffResult : Prop :=
  ∀ (s : State) (x y : List Byte),
    ∃ rx ry : List Byte,
      exec (.escStuff x) s = .next (s.emit (.bytes rx)) ∧
      exec (.escStuff y) s = .next (s.emit (.bytes ry)) ∧
      exec (.escStuff (x ++ y)) s = .next (s.emit (.bytes (rx ++ ry))) ∧
      rx = x.flatMap (fun b =>
        if b = 0x7E ∨ b = 0x7D ∨ (b.toNat < 0x20 ∧ s.txAccm.getLsbD b.toNat = true)
        then [0x7D, b ^^^ 0x20] else [b]) ∧
      x.length ≤ rx.length ∧ rx.length ≤ 2 * x.length

/-- R103. -/
def Obligations.PppEncodeResult : Prop :=
  ∀ (s : State) (protocol : Half) (payload : List Byte),
    exec (.pppEncode protocol payload) s = .next (s.emit (.bytes
      (0xFF :: 0x03 :: protocol.extractLsb' 8 8 :: protocol.extractLsb' 0 8 :: payload)))

/-- R104: flag, the content and its complemented FCS (low byte first) escaped, flag; never fails. -/
def Obligations.TxWriteResult : Prop :=
  ∀ (s : State) (protocol : Half) (payload : List Byte),
    let c : List Byte :=
      0xFF :: 0x03 :: protocol.extractLsb' 8 8 :: protocol.extractLsb' 0 8 :: payload
    let fcs : Half := fcsRun 0xFFFF c ^^^ 0xFFFF
    exec (.txWrite protocol payload) s = .next (s.emit (.bytes
      ([0x7E] ++ escStuff s.txAccm (c ++ [fcs.extractLsb' 0 8, fcs.extractLsb' 8 8]) ++ [0x7E])))

/-- R106 (marked by the spec as its own inference): the shape of what `TX.WRITE` returns. -/
def Obligations.TxWriteShape : Prop :=
  ∀ (accm : BitVec 32) (protocol : Half) (payload : List Byte),
    ∃ mid : List Byte, txWrite accm protocol payload = 0x7E :: (mid ++ [0x7E]) ∧
      (0x7E : Byte) ∉ mid ∧
      (∀ u v : List Byte, txWrite accm protocol payload = u ++ 0x7D :: v →
        ∃ (x : Byte) (v' : List Byte), v = x :: v' ∧
          (x = 0x5D ∨ x = 0x5E ∨ (0x20 ≤ x.toNat ∧ x.toNat ≤ 0x3F))) ∧
      (accm = 0xFFFFFFFF → ∀ b ∈ txWrite accm protocol payload, 0x20 ≤ b.toNat)

/-- R107 (marked by the spec as its own inference): the length of what `TX.WRITE` returns. -/
def Obligations.TxWriteLengthBounds : Prop :=
  ∀ (accm : BitVec 32) (protocol : Half) (payload : List Byte),
    8 + payload.length ≤ (txWrite accm protocol payload).length ∧
    (txWrite accm protocol payload).length ≤ 14 + 2 * payload.length ∧
    (accm = 0xFFFFFFFF → 9 + payload.length ≤ (txWrite accm protocol payload).length)

/-- R111 (marked by the spec as its own inference): what `ESC.STUFF` returns is accepted by
`ESC.UNSTUFF`, which gives the sequence back, for every transmit map. -/
def Obligations.UnstuffInvertsStuff : Prop :=
  ∀ (s : State) (x r : List Byte),
    exec (.escStuff x) s = .next (s.emit (.bytes r)) →
      exec (.escUnstuff r) s = .next (s.emit (.bytes x))

/-! ### RXU: the transitions -/

/-- R120, R139: `RX.PUSH b` is the row that `rx_state` and the class of `b` select; every other row is
refused there; and a byte off the line is that `RX.PUSH` (R6, log 4). -/
def Obligations.PushRunsTheSelectedRow : Prop :=
  (∀ (s : State) (b : Byte), exec (.rxPush b) s = exec (decodeWireByte s.rxState b) s) ∧
  (∀ (s : State) (i : Instr), i.isTransition = true →
    (∃ b : Byte, i = decodeWireByte s.rxState b) ∨ exec i s = .refused .rowNotSelected) ∧
  (∀ (s : State) (b : Byte) (rest : List Issue),
    step { s with pending := { channel := .line, bytes := [b] } :: rest } =
      step { s with pending := { channel := .op, bytes := [0x20, b] } :: rest })

/-- R122, R123, R124: in `Idle` a flag starts the frame search and every other byte is discarded. -/
def Obligations.IdleRows : Prop :=
  ∀ s : State, s.rxState = .idle →
    (∀ i ∈ [Instr.rxIdleFlag, .rxPush 0x7E],
      ∃ t, exec i s = .next t ∧ Moved s t .frameStart) ∧
    (∀ i ∈ [Instr.rxIdleEsc, .rxPush 0x7D], ∃ t, exec i s = .next t ∧ Moved s t .idle) ∧
    (∀ b : Byte, b ≠ 0x7E → b ≠ 0x7D → ∀ i ∈ [Instr.rxIdleData b, .rxPush b],
      ∃ t, exec i s = .next t ∧ Moved s t .idle)

/-- R125, R126, R127: in `FrameStart` a flag changes nothing, an escape begins a frame whose first byte
is still to come, any other byte is stored; the store's overflow (R134) needs `rx_len = RX_CAP`, which
no run reaches there. -/
def Obligations.FrameStartRows : Prop :=
  ∀ s : State, s.rxState = .frameStart →
    (∀ i ∈ [Instr.rxFrameStartFlag, .rxPush 0x7E],
      ∃ t, exec i s = .next t ∧ Moved s t .frameStart) ∧
    (∀ i ∈ [Instr.rxFrameStartEsc, .rxPush 0x7D],
      ∃ t, exec i s = .next t ∧ Moved s t .inFrameEscape) ∧
    (∀ b : Byte, b ≠ 0x7E → b ≠ 0x7D → ∀ i ∈ [Instr.rxFrameStartData b, .rxPush b],
      (s.rxLen < s.cfg.rxCap → ∃ t, exec i s = .next t ∧ Appended s b t) ∧
      (s.rxLen = s.cfg.rxCap → ∃ t, exec i s = .next t ∧ Overflowed s t))

/-- R129, R130, R134, R143: in `InFrame` an escape stores nothing; any byte but the two specials is
stored whatever its value, or overflows a full buffer. -/
def Obligations.InFrameStoringRows : Prop :=
  ∀ s : State, s.rxState = .inFrame →
    (∀ i ∈ [Instr.rxInFrameEsc, .rxPush 0x7D],
      ∃ t, exec i s = .next t ∧ Moved s t .inFrameEscape) ∧
    (∀ b : Byte, b ≠ 0x7E → b ≠ 0x7D → ∀ i ∈ [Instr.rxInFrameData b, .rxPush b],
      (s.rxLen < s.cfg.rxCap → ∃ t, exec i s = .next t ∧ Appended s b t) ∧
      (s.rxLen = s.cfg.rxCap → ∃ t, exec i s = .next t ∧ Overflowed s t))

/-- R131, R132, R133, R134: in `InFrameEscape` every byte, flag and escape included, is stored with bit
5 inverted, or overflows a full buffer. -/
def Obligations.InFrameEscapeRows : Prop :=
  ∀ s : State, s.rxState = .inFrameEscape →
    (∀ iv ∈ [(Instr.rxInFrameEscapeFlag, (0x5E : Byte)), (.rxPush 0x7E, 0x5E),
        (.rxInFrameEscapeEsc, 0x5D), (.rxPush 0x7D, 0x5D)],
      (s.rxLen < s.cfg.rxCap → ∃ t, exec iv.1 s = .next t ∧ Appended s iv.2 t) ∧
      (s.rxLen = s.cfg.rxCap → ∃ t, exec iv.1 s = .next t ∧ Overflowed s t)) ∧
    (∀ b : Byte, b ≠ 0x7E → b ≠ 0x7D → ∀ i ∈ [Instr.rxInFrameEscapeData b, .rxPush b],
      (s.rxLen < s.cfg.rxCap → ∃ t, exec i s = .next t ∧ Appended s (b ^^^ 0x20) t) ∧
      (s.rxLen = s.cfg.rxCap → ∃ t, exec i s = .next t ∧ Overflowed s t))

/-- R128, R135: a flag in `InFrame` ends the frame; the checks run length, FCS, header, and only a bad
FCS is counted; in every outcome the reader is in `FrameStart` with nothing stored. -/
def Obligations.InFrameFlagCompletes : Prop :=
  ∀ s : State, s.rxState = .inFrame → s.rxLen ≤ s.cfg.rxCap →
    ∀ i ∈ [Instr.rxInFrameFlag, .rxPush 0x7E],
      (s.rxLen < 4 → ∃ t, exec i s = .next t ∧ FrameEnded s t s.fcsErrCnt .none) ∧
      (4 ≤ s.rxLen → fcsRun 0xFFFF s.content ≠ 0xF0B8 →
        ∃ t, exec i s = .next t ∧ FrameEnded s t (s.fcsErrCnt + 1) .none) ∧
      (4 ≤ s.rxLen → fcsRun 0xFFFF s.content = 0xF0B8 →
        pppDecode (s.content.take (s.rxLen - 2)) = none →
        ∃ t, exec i s = .next t ∧ FrameEnded s t s.fcsErrCnt .none) ∧
      (∀ f : Frame, 4 ≤ s.rxLen → fcsRun 0xFFFF s.content = 0xF0B8 →
        pppDecode (s.content.take (s.rxLen - 2)) = some f →
        ∃ t, exec i s = .next t ∧ FrameEnded s t s.fcsErrCnt (.frame f))

/-- R120 (its sentence is marked as the spec's inference), R14, R240: which `RX.PUSH` can deliver a
frame, overflow, or count. -/
def Obligations.PushEventsAndCounter : Prop :=
  ∀ (s t : State) (b : Byte) (e : Event),
    exec (.rxPush b) s = .next t → t.results = s.results ++ [.event e] →
    (∀ f, e = .frame f → s.rxState = .inFrame ∧ b = 0x7E) ∧
    (e = .frameTooLong →
      s.rxLen = s.cfg.rxCap ∧ s.rxState ≠ .idle ∧ t.rxState = .idle ∧ t.rxLen = 0 ∧
      (b = 0x7E ∨ b = 0x7D → s.rxState = .inFrameEscape)) ∧
    (t.fcsErrCnt ≠ s.fcsErrCnt →
      t.fcsErrCnt = s.fcsErrCnt + 1 ∧ e = .none ∧ s.rxState = .inFrame ∧ b = 0x7E ∧
      4 ≤ s.rxLen ∧ fcsRun 0xFFFF s.content ≠ 0xF0B8)

/-- The frame of every instruction that touches RXU (R10, R15, R30): when it answers a next state, the
transmit map, the parameters and the host's queue are as before; and unless it ends a frame (a flag in
`InFrame`) or drops one (the overflow event), after which all of `rx_buf` is unspecified (93 U9), every
byte of `rx_buf` is as before but the one at `rx_len`, and at `rx_len` too unless `rx_len` moved up by
one. -/
def Obligations.ReaderInstructionsFrame : Prop :=
  ∀ (s t : State) (i : Instr), (i.isTransition = true ∨ ∃ b, i = .rxPush b) →
    exec i s = .next t →
      SameRest s t ∧ ∃ e, t.results = s.results ++ [.event e] ∧
      (e ≠ .frameTooLong → i ≠ .rxInFrameFlag → ¬ (s.rxState = .inFrame ∧ i = .rxPush 0x7E) →
        SameBytesBut [s.rxLen] s t ∧ (t.rxLen ≠ s.rxLen + 1 → SameBytesBut [] s t))

/-- R52, with R126, R129, R133 (log 14): the wire bytes `7D b` are two bytes pushed; in a frame with
room they store `b ^ 0x20`, in a full one they overflow; outside a frame they store nothing. -/
def Obligations.EscapePairStoresTheByte : Prop :=
  ∀ (s : State) (b : Byte),
    (∀ u, exec (.rxPush 0x7D) s = .next u → exec (.escapePair b) s = exec (.rxPush b) u) ∧
    (s.rxState = .frameStart ∨ s.rxState = .inFrame → s.rxLen < s.cfg.rxCap →
      ∃ u t, exec (.rxPush 0x7D) s = .next u ∧ exec (.rxPush b) u = .next t ∧
        exec (.escapePair b) s = .next t ∧ Moved s u .inFrameEscape ∧
        Appended u (b ^^^ 0x20) t) ∧
    (s.rxState = .frameStart ∨ s.rxState = .inFrame → s.rxLen = s.cfg.rxCap →
      ∃ u t, exec (.rxPush 0x7D) s = .next u ∧ exec (.rxPush b) u = .next t ∧
        exec (.escapePair b) s = .next t ∧ Moved s u .inFrameEscape ∧ Overflowed u t) ∧
    (s.rxState = .idle →
      ∃ u t, exec (.rxPush 0x7D) s = .next u ∧ exec (.rxPush b) u = .next t ∧
        exec (.escapePair b) s = .next t ∧ Moved s u .idle ∧
        Moved u t (if b = 0x7E then .frameStart else .idle))

/-- R8, R36: an access outside `0..RX_CAP-1`, which needs `rx_len > RX_CAP`, stops with the model's
fault (log 16), and nothing else of the reader does. -/
def Obligations.ReaderFaultsOnlyOutsideTheBuffer : Prop :=
  ∀ (s : State) (b : Byte) (f : Fault),
    exec (.rxPush b) s = .fault f →
      s.cfg.rxCap < s.rxLen ∧ s.rxState ≠ .idle

/-! ### RXU: PPP.DECODE, ESC.UNSTUFF -/

/-- R136: every form of content, by its first bytes. -/
def Obligations.PppDecodeForms : Prop :=
  ∀ s : State,
    exec (.pppDecode []) s = .next (s.emit .reject) ∧
    exec (.pppDecode [0xFF]) s = .next (s.emit .reject) ∧
    (∀ (c : Byte) (x : List Byte), c ≠ 0x03 →
      exec (.pppDecode (0xFF :: c :: x)) s = .next (s.emit .reject)) ∧
    exec (.pppDecode [0xFF, 0x03]) s = .next (s.emit .reject) ∧
    (∀ (p : Byte) (x : List Byte), p.getLsbD 0 = true →
      exec (.pppDecode (0xFF :: 0x03 :: p :: x)) s = .next (s.emit (.frame
        { address := 0xFF, control := 0x03, protocol := p.setWidth 16, body := x }))) ∧
    (∀ p : Byte, p.getLsbD 0 = false →
      exec (.pppDecode [0xFF, 0x03, p]) s = .next (s.emit .reject)) ∧
    (∀ (p q : Byte) (x : List Byte), p.getLsbD 0 = false →
      exec (.pppDecode (0xFF :: 0x03 :: p :: q :: x)) s = .next (s.emit (.frame
        { address := 0xFF, control := 0x03,
          protocol := BitVec.ofNat 16 (p.toNat * 256 + q.toNat), body := x }))) ∧
    (∀ (p : Byte) (x : List Byte), p ≠ 0xFF → p.getLsbD 0 = true →
      exec (.pppDecode (p :: x)) s = .next (s.emit (.frame
        { address := 0xFF, control := 0x03, protocol := p.setWidth 16, body := x }))) ∧
    (∀ (p : Byte) (x : List Byte), p.getLsbD 0 = false →
      exec (.pppDecode (p :: x)) s = .next (s.emit .reject))

/-- R54, R55: the three header rows deliver the Protocol value and the body, and agree with
`PPP.DECODE` of the bytes they are encoded in; the address-less row does not stand for `0xFF`. -/
def Obligations.HeaderRowsAgreeWithPppDecode : Prop :=
  ∀ (s : State) (p : BitVec 7) (q : Byte) (x : List Byte),
    exec (.headerFull p q x) s = .next (s.emit (.frame
      { address := 0xFF, control := 0x03,
        protocol := BitVec.ofNat 16 (p.toNat * 512 + q.toNat), body := x })) ∧
    exec (.headerFull p q x) s = exec (.pppDecode (encode (.headerFull p q x)).2) s ∧
    exec (.headerPfc p x) s = .next (s.emit (.frame
      { address := 0xFF, control := 0x03,
        protocol := BitVec.ofNat 16 (p.toNat * 2 + 1), body := x })) ∧
    exec (.headerPfc p x) s = exec (.pppDecode (encode (.headerPfc p x)).2) s ∧
    (p ≠ 0x7F → exec (.headerAcfcPfc p x) s = .next (s.emit (.frame
      { address := 0xFF, control := 0x03,
        protocol := BitVec.ofNat 16 (p.toNat * 2 + 1), body := x }))) ∧
    (p ≠ 0x7F →
      exec (.headerAcfcPfc p x) s = exec (.pppDecode (encode (.headerAcfcPfc p x)).2) s) ∧
    exec (.headerAcfcPfc 0x7F x) s = .refused .rowNotSelected

/-- R54 with R136: a content is delivered by `PPP.DECODE` exactly when one of the three header rows
decodes from it, and is rejected otherwise. -/
def Obligations.PppDecodeIsTheHeaderRows : Prop :=
  ∀ (s : State) (d : List Byte),
    (∀ i, decode .header d = .ok i → exec (.pppDecode d) s = exec i s) ∧
    (∀ e, decode .header d = .error e → exec (.pppDecode d) s = .next (s.emit .reject))

/-- R137: a stuffed sequence gives what it stands for; any other sequence is refused. -/
def Obligations.UnstuffResultAndRefusal : Prop :=
  (∀ (s : State) (x out : List Byte), Unstuffs x out →
    exec (.escUnstuff x) s = .next (s.emit (.bytes out))) ∧
  (∀ (s : State) (x : List Byte), (∀ out, ¬ Unstuffs x out) →
    exec (.escUnstuff x) s = .refused .unstuffPrecondition)

/-- R137, last part (marked by the spec as its own inference): after a flag, the reader's states compute
`ESC.UNSTUFF` one byte at a time. -/
def Obligations.ReaderComputesUnstuff : Prop :=
  ∀ (s : State) (x out : List Byte), s.rxState = .idle ∨ s.rxState = .frameStart → s.rxLen = 0 →
    Unstuffs x out → out.length ≤ s.cfg.rxCap →
      ∃ t, rxFeedAll (0x7E :: x) s = .next (t, []) ∧ t.content = out ∧
        t.fcsErrCnt = s.fcsErrCnt ∧ SameRest s t

/-! ### RXU: streams -/

/-- R140 (marked by the spec as its own inference): what the writer sends, the reader delivers; for a
Protocol with an odd high byte it delivers the split the spec names (90 C1). -/
def Obligations.WriterToReaderRoundTrip : Prop :=
  ∀ (s : State) (p : Half) (x : List Byte), s.rxState = .idle ∨ s.rxState = .frameStart →
    s.rxLen = 0 → x.length + 6 ≤ s.cfg.rxCap →
      ∃ t, rxFeedAll (txWrite s.txAccm p x) s = .next (t, [.frame
          { address := 0xFF, control := 0x03,
            protocol := (if p.getLsbD 8 then p >>> 8 else p),
            body := (if p.getLsbD 8 then p.extractLsb' 0 8 :: x else x) }]) ∧
        t.rxState = .frameStart ∧ t.rxLen = 0 ∧ t.fcsErrCnt = s.fcsErrCnt ∧ SameRest s t

/-- R140, last part, R142, R259: from `InFrame`, whatever fragment is in the buffer, the next frame
written is still delivered, last; its opening flag ends the fragment, which is dropped or delivered and
counted at most once. -/
def Obligations.FrameAfterFragmentIsDelivered : Prop :=
  ∀ (s : State) (p : Half) (x : List Byte), s.rxState = .inFrame → s.rxLen ≤ s.cfg.rxCap →
    x.length + 6 ≤ s.cfg.rxCap → p.getLsbD 8 = false →
      ∃ t es, rxFeedAll (txWrite s.txAccm p x) s = .next (t, es ++ [.frame
          { address := 0xFF, control := 0x03, protocol := p, body := x }]) ∧
        es.length ≤ 1 ∧ t.rxState = .frameStart ∧ t.rxLen = 0 ∧
        (t.fcsErrCnt = s.fcsErrCnt ∨ (t.fcsErrCnt = s.fcsErrCnt + 1 ∧ es = []))

/-- R141 (marked by the spec as its own inference): from `Idle`, bytes without a flag leave no trace. -/
def Obligations.GarbageBeforeFlagLeavesNoTrace : Prop :=
  ∀ (s : State) (g w : List Byte), s.rxState = .idle → (0x7E : Byte) ∉ g →
    rxFeedAll (g ++ w) s = rxFeedAll w s

/-- R134, R231: a frame of more than `RX_CAP` unescaped bytes, escaped or plain on the wire, is reported
once, by the byte that does not fit (`y`: one plain byte or one pair); the rest of it is discarded and the
next flag resynchronises. So it goes with every frame of the block's own writer that is too long. -/
def Obligations.OverlongFrameIsReportedOnce : Prop :=
  (∀ (s : State) (x out y rest : List Byte) (v : Byte), s.rxState = .frameStart → s.rxLen = 0 →
    Unstuffs x out → out.length = s.cfg.rxCap → Unstuffs y [v] → (0x7E : Byte) ∉ rest →
      ∃ t, rxFeedAll (x ++ (y ++ (rest ++ [0x7E]))) s = .next (t, [.frameTooLong]) ∧
        t.rxState = .frameStart ∧ t.rxLen = 0 ∧ t.fcsErrCnt = s.fcsErrCnt ∧ SameRest s t) ∧
  (∀ (s : State) (p : Half) (payload : List Byte), s.rxState = .idle ∨ s.rxState = .frameStart →
    s.rxLen = 0 → s.cfg.rxCap < payload.length + 6 →
      ∃ t, rxFeedAll (txWrite s.txAccm p payload) s = .next (t, [.frameTooLong]) ∧
        t.rxState = .frameStart ∧ t.rxLen = 0 ∧ t.fcsErrCnt = s.fcsErrCnt ∧ SameRest s t)

/-- R138: `RX.FEED` stops after the first event, and feeding the rest gives what `RX.FEEDALL` gives. -/
def Obligations.FeedStopsAtFirstEvent : Prop :=
  ∀ (s t : State) (x : List Byte) (n : Nat) (e : Event), rxFeed x s = .next (t, n, e) →
    n ≤ x.length ∧ (e = .none → n = x.length ∧ rxFeedAll x s = .next (t, [])) ∧
    (e ≠ .none →
      1 ≤ n ∧ rxFeedAll (x.take n) s = .next (t, [e]) ∧
      (∀ u es, rxFeedAll (x.drop n) t = .next (u, es) → rxFeedAll x s = .next (u, e :: es)))

/-- R67, R138, R39: the operations `RX.FEEDALL` expands to, run step by step, leave the reader as
`RX.FEEDALL` does and hand out one event per byte, in order; those that are not `None` are its events. -/
def Obligations.FeedAllRunsAsSteps : Prop :=
  ∀ (s t : State) (x : List Byte) (es : List Event) (rest : List Issue),
    rxFeedAll x s = .next (t, es) →
      ∃ evs : List Event, evs.length = x.length ∧ evs.filter (fun e => e ≠ .none) = es ∧
        Host.Core.run core x.length { s with pending := feedIssues x ++ rest } =
          .next { t with pending := rest, results := s.results ++ evs.map .event }

/-! ### OPTU -/

/-- R160: the four shapes of a list at its front. -/
def Obligations.OptNextResult : Prop :=
  ∀ s : State,
    exec (.optNext []) s = .next (s.emit .optEnd) ∧
    (∀ t : Byte, exec (.optNext [t]) s = .next (s.emit .malformed)) ∧
    (∀ (t l : Byte) (x : List Byte), l.toNat < 2 ∨ x.length + 2 < l.toNat →
      exec (.optNext (t :: l :: x)) s = .next (s.emit .malformed)) ∧
    (∀ (t l : Byte) (v rest : List Byte), l.toNat = 2 + v.length →
      exec (.optNext (t :: l :: (v ++ rest))) s = .next (s.emit (.optItem t v rest)))

/-- R58, R160: the row `OPTION.TLV` is `OPT.NEXT` on the bytes it is encoded in: the option, or
`Malformed` when its length byte is below 2 or above the bytes there are. -/
def Obligations.OptionTlvIsOptNext : Prop :=
  ∀ (s : State) (t l : Byte) (x : List Byte),
    exec (.optionTlv t l x) s = exec (.optNext (encode (.optionTlv t l x)).2) s ∧
    (l.toNat < 2 ∨ x.length + 2 < l.toNat →
      exec (.optionTlv t l x) s = .next (s.emit .malformed)) ∧
    (2 ≤ l.toNat → l.toNat ≤ x.length + 2 →
      exec (.optionTlv t l x) s =
        .next (s.emit (.optItem t (x.take (l.toNat - 2)) (x.drop (l.toNat - 2)))))

/-- R161: a list of options laid end to end gives exactly those options, in order; any other sequence
is malformed as a whole. -/
def Obligations.OptParseResult : Prop :=
  (∀ (s : State) (l : List TlvOption), ValuesFit l →
    exec (.optParse (optionLayout l)) s = .next (s.emit (.optList l))) ∧
  (∀ (s : State) (x : List Byte), (∀ l, ValuesFit l → optionLayout l ≠ x) →
    exec (.optParse x) s = .next (s.emit .malformed))

/-- R161 with R160: `OPT.PARSE` is the loop over `OPT.NEXT`. -/
def Obligations.OptParseLoopsOptNext : Prop :=
  ∀ (s : State) (x : List Byte),
    (exec (.optNext x) s = .next (s.emit .optEnd) →
      exec (.optParse x) s = .next (s.emit (.optList []))) ∧
    (exec (.optNext x) s = .next (s.emit .malformed) →
      exec (.optParse x) s = .next (s.emit .malformed)) ∧
    (∀ (t : Byte) (v rest : List Byte),
      exec (.optNext x) s = .next (s.emit (.optItem t v rest)) →
      (∀ l, exec (.optParse rest) s = .next (s.emit (.optList l)) →
        exec (.optParse x) s = .next (s.emit (.optList ({ type := t, value := v } :: l)))) ∧
      (exec (.optParse rest) s = .next (s.emit .malformed) →
        exec (.optParse x) s = .next (s.emit .malformed)))

/-- R162 and U8: written whole, or `Overflow`, or refused outside the operand conditions. -/
def Obligations.OptPutResult : Prop :=
  ∀ (s : State) (buf value : List Byte) (cap : Nat) (t : Byte),
    (value.length ≤ 253 → buf.length + (2 + value.length) ≤ cap →
      exec (.optPut buf cap t value) s = .next (s.emit (.optBuffer
        (buf ++ [t, BitVec.ofNat 8 (2 + value.length)] ++ value)))) ∧
    (value.length ≤ 253 → buf.length ≤ cap → cap < buf.length + (2 + value.length) →
      exec (.optPut buf cap t value) s = .next (s.emit .overflow)) ∧
    (253 < value.length → exec (.optPut buf cap t value) s = .refused .optValueTooLong) ∧
    (value.length ≤ 253 → cap < buf.length →
      exec (.optPut buf cap t value) s = .refused .optBufferOverCap)

/-- R163: the options end to end in list order with the byte count, or `Overflow` when they do not all
fit. -/
def Obligations.OptEmitResult : Prop :=
  ∀ (s : State) (cap : Nat) (l : List TlvOption), ValuesFit l →
    ((optionLayout l).length ≤ cap →
      exec (.optEmit cap l) s =
        .next (s.emit (.optEmitted (optionLayout l) (optionLayout l).length))) ∧
    (cap < (optionLayout l).length → exec (.optEmit cap l) s = .next (s.emit .overflow))

/-- U8: a list with a value longer than 253 bytes is refused, whatever else is in it and whatever the
capacity (that it is refused even where an earlier option overflows is the model's choice, log 17). -/
def Obligations.OptEmitRefusesLongValues : Prop :=
  ∀ (s : State) (cap : Nat) (l k : List TlvOption) (o : TlvOption), 253 < o.value.length →
    exec (.optEmit cap (l ++ o :: k)) s = .refused .optValueTooLong

/-- R163 with R162: `OPT.EMIT` is the loop over `OPT.PUT`, option by option, from an empty buffer. -/
def Obligations.OptEmitLoopsOptPut : Prop :=
  ∀ (s : State) (cap : Nat) (l : List TlvOption) (o : TlvOption) (buf : List Byte) (n : Nat),
    exec (.optEmit cap []) s = .next (s.emit (.optEmitted [] 0)) ∧
    (exec (.optEmit cap l) s = .next (s.emit (.optEmitted buf n)) → o.value.length ≤ 253 →
      (∀ buf', exec (.optPut buf cap o.type o.value) s = .next (s.emit (.optBuffer buf')) →
        exec (.optEmit cap (l ++ [o])) s = .next (s.emit (.optEmitted buf' buf'.length))) ∧
      (exec (.optPut buf cap o.type o.value) s = .next (s.emit .overflow) →
        exec (.optEmit cap (l ++ [o])) s = .next (s.emit .overflow))) ∧
    (exec (.optEmit cap l) s = .next (s.emit .overflow) → o.value.length ≤ 253 →
      exec (.optEmit cap (l ++ [o])) s = .next (s.emit .overflow))

/-- R164 (marked by the spec as its own inference): emit then parse, and parse then emit. -/
def Obligations.OptionCodecRoundTrip : Prop :=
  (∀ (s : State) (cap : Nat) (l : List TlvOption) (b : List Byte) (n : Nat),
    exec (.optEmit cap l) s = .next (s.emit (.optEmitted b n)) →
      n = b.length ∧ exec (.optParse b) s = .next (s.emit (.optList l))) ∧
  (∀ (s : State) (x : List Byte) (l : List TlvOption),
    exec (.optParse x) s = .next (s.emit (.optList l)) →
      exec (.optEmit x.length l) s = .next (s.emit (.optEmitted x x.length)))

/-! ### The layout rows FCS.FIELD and CONTROL.PACKET -/

/-- R56, R85: the field read low byte first is the FCS that `FCS.FINAL` split (log 13). -/
def Obligations.FcsFieldReadsWhatFinalSplit : Prop :=
  ∀ (s : State) (low high : Byte) (acc : Half),
    exec (.fcsField low high) s = .next (s.emit (.fcs
      (BitVec.ofNat 16 (high.toNat * 256 + low.toNat)) low high)) ∧
    exec (.fcsField (fcsFinal acc).2.1 (fcsFinal acc).2.2) s = exec (.fcsFinal acc) s

/-- R59, R65: the four header fields at their offsets, `len` high byte first, and a body of `len - 4`
bytes, so that the packet ends `len` bytes after it starts. That bytes beyond it are handed on (91 N17),
and that an inconsistent `len` (the host's `MalformedPacket`, R64) gives the fields and no body, is the
model's choice, as is running the row (logs 13 and 22). The last part: its bytes decode to the row. -/
def Obligations.ControlPacketEndsAfterLen : Prop :=
  ∀ (s : State) (code id : Byte) (len : Half) (x : List Byte),
    (∀ body beyond : List Byte, x = body ++ beyond → len.toNat = 4 + body.length →
      exec (.controlPacket code id len x) s =
        .next (s.emit (.packet code id len (some body) beyond))) ∧
    (len.toNat < 4 ∨ x.length + 4 < len.toNat →
      exec (.controlPacket code id len x) s = .next (s.emit (.packet code id len none x))) ∧
    (∀ h l : Byte, len = BitVec.ofNat 16 (h.toNat * 256 + l.toNat) →
      decode .packet (code :: id :: h :: l :: x) = .ok (.controlPacket code id len x))

/-! ### Whole-machine rules -/

/-- R7, R10: the result of a pure instruction depends on its operands and the transmit map alone, and
nothing of the block changes: in any two states with one map it gives one result or one refusal. -/
def Obligations.PureInstructionsDependOnOperandsAlone : Prop :=
  ∀ (i : Instr) (s t : State), i.isPure = true → s.txAccm = t.txAccm →
    (∃ r, exec i s = .next (s.emit r) ∧ exec i t = .next (t.emit r)) ∨
    (∃ q, exec i s = .refused q ∧ exec i t = .refused q)

/-- R15, R31, R262: no instruction writes the transmit map, the parameters or the host's queue, and
each hands out its results after those before. -/
def Obligations.EveryInstructionKeepsConstantsAndAppendsResults : Prop :=
  ∀ (i : Instr) (s t : State), exec i s = .next t →
    SameRest s t ∧ ∃ rs, t.results = s.results ++ rs ∧ rs.length = i.resultCount

/-- R12, 93 U9: no result and no later state depends on a byte of `rx_buf` outside the frame being
assembled: two states that differ only in such bytes step to states that differ only in such bytes, and
hand out the same results. -/
def Obligations.StepIgnoresStaleBytes : Prop :=
  ∀ s t u : State, SameButStaleBytes s t → step s = .next u →
    ∃ v, step t = .next v ∧ SameButStaleBytes u v

/-- R243, R36: from a state that meets the invariant no step faults. -/
def Obligations.InvariantStatesNeverFault : Prop :=
  ∀ (s : State) (f : Fault), s.Inv → step s ≠ .fault f

/-- R234, U8: a step refuses an operation number that R62 does not assign and the operand values the
spec refuses. What else it refuses is the model's own: bytes that encode no instruction under their
channel's format, which are no number and operands (log 3) or fit no row of a layout (log 4). It never
refuses a row that is not selected, nor for want of a meaning. -/
def Obligations.StepsRefuseOnlyNonInstructionsAndRefusedOperands : Prop :=
  ∀ (s : State) (r : Refusal), step s = .refused r →
    ∃ it rest, s.pending = it :: rest ∧
      ((∃ op args, it.channel = .op ∧ it.bytes = op :: args ∧ op.toNat ∉ assignedOps ∧
          r = .undecodable (.unassignedOp op)) ∨
       (∃ e, r = .undecodable e ∧ (∀ op, e ≠ .unassignedOp op) ∧
          (∀ i : Instr, i.WellFormed → encode i ≠ (channelFormat s.rxState it.channel, it.bytes)) ∧
          (∀ op args, it.channel = .op → it.bytes = op :: args → op.toNat ∈ assignedOps)) ∨
       (∃ x, r = .unstuffPrecondition ∧ fetch it s = .ok (.escUnstuff x) ∧
          ∀ out, ¬ Unstuffs x out) ∨
       (∃ buf cap t v, r = .optValueTooLong ∧ fetch it s = .ok (.optPut buf cap t v) ∧
          253 < v.length) ∨
       (∃ buf cap t v, r = .optBufferOverCap ∧ fetch it s = .ok (.optPut buf cap t v) ∧
          cap < buf.length) ∨
       (∃ cap l, r = .optValueTooLong ∧ fetch it s = .ok (.optEmit cap l) ∧ ¬ ValuesFit l))
end

