-- ==== Sys2Proof/Laws/State.lean ====
section
/-! SUPPORT. One lemma per field for each update of State, so that no proof unfolds a record update. -/

namespace Sys2Proof.Machine

/-! ### `emit` -/

@[simp] theorem State.emit_rxState (s : State) (r : Result) : (s.emit r).rxState = s.rxState := rfl
@[simp] theorem State.emit_rxBuf (s : State) (r : Result) : (s.emit r).rxBuf = s.rxBuf := rfl
@[simp] theorem State.emit_rxLen (s : State) (r : Result) : (s.emit r).rxLen = s.rxLen := rfl
@[simp] theorem State.emit_fcsErrCnt (s : State) (r : Result) :
    (s.emit r).fcsErrCnt = s.fcsErrCnt := rfl
@[simp] theorem State.emit_txAccm (s : State) (r : Result) : (s.emit r).txAccm = s.txAccm := rfl
@[simp] theorem State.emit_cfg (s : State) (r : Result) : (s.emit r).cfg = s.cfg := rfl
@[simp] theorem State.emit_rxEpoch (s : State) (r : Result) : (s.emit r).rxEpoch = s.rxEpoch := rfl
@[simp] theorem State.emit_pending (s : State) (r : Result) : (s.emit r).pending = s.pending := rfl
@[simp] theorem State.emit_results (s : State) (r : Result) :
    (s.emit r).results = s.results ++ [r] := rfl
@[simp] theorem State.emit_rxByte (s : State) (r : Result) (a : Nat) :
    (s.emit r).rxByte a = s.rxByte a := rfl

/-- A result handed out is known from the state it leaves. -/
theorem State.emit_injective (s : State) {r q : Result} (h : s.emit r = s.emit q) : r = q := by
  have := congrArg State.results h
  simpa using this

/-! ### `dropContent`, `raise` (the state effect of the six outcomes), `frameDone` -/

@[simp] theorem State.dropContent_rxLen (s : State) : s.dropContent.rxLen = 0 := rfl
@[simp] theorem State.dropContent_rxBuf (s : State) : s.dropContent.rxBuf = [] := rfl
@[simp] theorem State.dropContent_rxEpoch (s : State) :
    s.dropContent.rxEpoch = s.rxEpoch + 1 := rfl
@[simp] theorem State.dropContent_rxState (s : State) : s.dropContent.rxState = s.rxState := rfl
@[simp] theorem State.dropContent_fcsErrCnt (s : State) :
    s.dropContent.fcsErrCnt = s.fcsErrCnt := rfl
@[simp] theorem State.dropContent_txAccm (s : State) : s.dropContent.txAccm = s.txAccm := rfl
@[simp] theorem State.dropContent_cfg (s : State) : s.dropContent.cfg = s.cfg := rfl
@[simp] theorem State.dropContent_pending (s : State) : s.dropContent.pending = s.pending := rfl
@[simp] theorem State.dropContent_results (s : State) : s.dropContent.results = s.results := rfl
@[simp] theorem State.raise_txAccm (s : State) (o : ErrorOutcome) :
    (s.raise o).txAccm = s.txAccm := by cases o <;> rfl
@[simp] theorem State.raise_cfg (s : State) (o : ErrorOutcome) :
    (s.raise o).cfg = s.cfg := by cases o <;> rfl
@[simp] theorem State.raise_pending (s : State) (o : ErrorOutcome) :
    (s.raise o).pending = s.pending := by cases o <;> rfl
@[simp] theorem State.raise_results (s : State) (o : ErrorOutcome) :
    (s.raise o).results = s.results := by cases o <;> rfl
@[simp] theorem State.raise_malformed (s : State) : s.raise .malformed = s := rfl
@[simp] theorem State.raise_overflow (s : State) : s.raise .overflow = s := rfl
@[simp] theorem State.raise_tooShort (s : State) : s.raise .tooShort = s.frameDone := rfl
@[simp] theorem State.raise_headerReject (s : State) : s.raise .headerReject = s.frameDone := rfl
@[simp] theorem State.raise_frameTooLong_rxBuf (s : State) :
    (s.raise .frameTooLong).rxBuf = [] := rfl
@[simp] theorem State.raise_fcsMismatch_rxBuf (s : State) :
    (s.raise .fcsMismatch).rxBuf = [] := rfl
@[simp] theorem State.raise_frameTooLong_rxEpoch (s : State) :
    (s.raise .frameTooLong).rxEpoch = s.rxEpoch + 1 := rfl
@[simp] theorem State.raise_fcsMismatch_rxEpoch (s : State) :
    (s.raise .fcsMismatch).rxEpoch = s.rxEpoch + 1 := rfl
@[simp] theorem State.raise_frameTooLong_rxState (s : State) :
    (s.raise .frameTooLong).rxState = .idle := rfl
@[simp] theorem State.raise_frameTooLong_rxLen (s : State) :
    (s.raise .frameTooLong).rxLen = 0 := rfl
@[simp] theorem State.raise_frameTooLong_fcsErrCnt (s : State) :
    (s.raise .frameTooLong).fcsErrCnt = s.fcsErrCnt := rfl
@[simp] theorem State.raise_fcsMismatch_rxState (s : State) :
    (s.raise .fcsMismatch).rxState = .frameStart := rfl
@[simp] theorem State.raise_fcsMismatch_rxLen (s : State) :
    (s.raise .fcsMismatch).rxLen = 0 := rfl
@[simp] theorem State.raise_fcsMismatch_fcsErrCnt (s : State) :
    (s.raise .fcsMismatch).fcsErrCnt = s.fcsErrCnt + 1 := rfl

@[simp] theorem State.frameDone_rxState (s : State) : s.frameDone.rxState = .frameStart := rfl
@[simp] theorem State.frameDone_rxBuf (s : State) : s.frameDone.rxBuf = [] := rfl
@[simp] theorem State.frameDone_rxEpoch (s : State) :
    s.frameDone.rxEpoch = s.rxEpoch + 1 := rfl
@[simp] theorem State.frameDone_rxLen (s : State) : s.frameDone.rxLen = 0 := rfl
@[simp] theorem State.frameDone_fcsErrCnt (s : State) :
    s.frameDone.fcsErrCnt = s.fcsErrCnt := rfl
@[simp] theorem State.frameDone_txAccm (s : State) : s.frameDone.txAccm = s.txAccm := rfl
@[simp] theorem State.frameDone_cfg (s : State) : s.frameDone.cfg = s.cfg := rfl
@[simp] theorem State.frameDone_pending (s : State) : s.frameDone.pending = s.pending := rfl
@[simp] theorem State.frameDone_results (s : State) : s.frameDone.results = s.results := rfl

/-! ### Reading a byte after an update of another field -/

@[simp] theorem State.rxByte_rxState (s : State) (st : RxState) (a : Nat) :
    ({ s with rxState := st } : State).rxByte a = s.rxByte a := rfl
@[simp] theorem State.rxByte_pending (s : State) (p : List Issue) (a : Nat) :
    ({ s with pending := p } : State).rxByte a = s.rxByte a := rfl
@[simp] theorem State.rxByte_results (s : State) (r : List Result) (a : Nat) :
    ({ s with results := r } : State).rxByte a = s.rxByte a := rfl
@[simp] theorem State.rxByte_rxLen (s : State) (n : Nat) (a : Nat) :
    ({ s with rxLen := n } : State).rxByte a = s.rxByte a := rfl

theorem SameRest.refl (s : State) : SameRest s s := ⟨rfl, rfl, rfl⟩

theorem SameRest.trans {s t u : State} (h : SameRest s t) (k : SameRest t u) : SameRest s u :=
  ⟨k.accm.trans h.accm, k.cfg.trans h.cfg, k.pending.trans h.pending⟩

end Sys2Proof.Machine
end

