-- ==== Sys2Proof/Laws/Fcs.lean ====
section
/-! SUPPORT. The algebra of the FCS: the rounds of R82 are linear over XOR, the high byte of the
accumulator is only shifted, a step loses nothing. -/

namespace Sys2Proof.Machine

/-- One round is linear over XOR. -/
theorem fcsRound_xor (x y : Half) : fcsRound (x ^^^ y) = fcsRound x ^^^ fcsRound y := by
  unfold fcsRound
  rw [BitVec.getLsbD_xor, BitVec.ushiftRight_xor_distrib]
  have swap : ∀ a b c : Half, a ^^^ (b ^^^ c) = b ^^^ (a ^^^ c) := fun a b c => by
    rw [← BitVec.xor_assoc, BitVec.xor_comm a b, BitVec.xor_assoc]
  cases x.getLsbD 0 <;> cases y.getLsbD 0 <;>
    simp [BitVec.xor_assoc, BitVec.xor_comm _ Config.poly]
  · exact swap _ _ _
  · rw [swap Config.poly (x >>> 1), ← BitVec.xor_assoc Config.poly]
    simp

/-- Any number of rounds is linear over XOR. -/
theorem fcsRounds_xor (n : Nat) (x y : Half) :
    fcsRounds n (x ^^^ y) = fcsRounds n x ^^^ fcsRounds n y := by
  induction n generalizing x y with
  | zero => rfl
  | succ n ih => simp only [fcsRounds, fcsRound_xor, ih]

/-- Eight rounds only shift a value whose low byte is zero. -/
theorem fcsRounds_high (h : Byte) : fcsRounds 8 (h ++ (0 : Byte)) = h.setWidth 16 := by
  revert h; decide

/-- A 16-bit value is its high byte over its low byte. -/
theorem half_split (x : Half) : x = (hi8 x ++ (0 : Byte)) ^^^ zext16 (lo8 x) := by
  apply BitVec.eq_of_getLsbD_eq
  intro i hi
  simp only [hi8, lo8, zext16, BitVec.getLsbD_xor, BitVec.getLsbD_append, BitVec.getLsbD_setWidth,
    BitVec.getLsbD_extractLsb']
  by_cases h : i < 8
  · simp [h]; omega
  · have h' : i - 8 < 8 := by omega
    have h8 : 8 + (i - 8) = i := by omega
    simp [h, h', h8]

/-- A shift by a byte leaves the high byte. -/
theorem shift8 (x : Half) : x >>> 8 = zext16 (hi8 x) := by
  apply BitVec.eq_of_getLsbD_eq
  intro i hi
  simp only [hi8, zext16, BitVec.getLsbD_setWidth, BitVec.getLsbD_extractLsb',
    BitVec.getLsbD_ushiftRight]
  by_cases h : i < 8
  · simp [h]; omega
  · simp [h, BitVec.getLsbD_of_ge x (8 + i) (by omega)]

/-- R83's reason: the high byte of the accumulator is only shifted, the rest depends on the low byte. -/
theorem fcsUpdate_split (acc : Half) (b : Byte) :
    fcsUpdate acc b = (acc >>> 8) ^^^ fcsRounds 8 (zext16 (lo8 acc ^^^ b)) := by
  have hx : acc ^^^ zext16 b = (hi8 acc ++ (0 : Byte)) ^^^ zext16 (lo8 acc ^^^ b) := by
    conv_lhs => rw [half_split acc]
    rw [BitVec.xor_assoc]
    simp [zext16, BitVec.setWidth_xor]
  rw [fcsUpdate, hx, fcsRounds_xor, fcsRounds_high, shift8]
  rfl

@[simp] theorem fcsRun_nil (acc : Half) : fcsRun acc [] = acc := rfl

@[simp] theorem fcsRun_cons (acc : Half) (b : Byte) (s : List Byte) :
    fcsRun acc (b :: s) = fcsRun (fcsUpdate acc b) s := rfl

/-- R84: a run composes. -/
theorem fcsRun_append (acc : Half) (s t : List Byte) :
    fcsRun acc (s ++ t) = fcsRun (fcsRun acc s) t := List.foldl_append

end Sys2Proof.Machine
end

