-- ==== Sys2Proof/Laws/Header.lean ====
section
/-! SUPPORT. The values two bytes make up (spec/00_scope.md R8) and the equations of `PPP.DECODE`
(spec/42_frame_reader.md R136) by the first bytes of the content. -/

namespace Sys2Proof

theorem be16_toNat (a b : Byte) : (be16 a b).toNat = a.toNat * 256 + b.toNat := by
  have h : (be16 a b).toNat = a.toNat <<< 8 ||| b.toNat := BitVec.toNat_append a b
  rw [h, ← Nat.shiftLeft_add_eq_or_of_lt b.isLt, Nat.shiftLeft_eq]

/-- `be16(a, b) = a * 256 + b` (R8). -/
theorem be16_eq (a b : Byte) : be16 a b = BitVec.ofNat 16 (a.toNat * 256 + b.toNat) := by
  rw [← be16_toNat, BitVec.ofNat_toNat, BitVec.setWidth_eq]

/-- Splitting and joining a 16-bit value (R8). -/
theorem be16_hi8_lo8 (w : Half) : be16 (hi8 w) (lo8 w) = w := by
  apply BitVec.eq_of_getLsbD_eq
  intro i hi
  simp only [be16, hi8, lo8, BitVec.getLsbD_append, BitVec.getLsbD_extractLsb']
  by_cases h : i < 8
  · simp [h]
  · have h' : i - 8 < 8 := by omega
    have h8 : 8 + (i - 8) = i := by omega
    simp [h, h', h8]

theorem hi8_be16 (a b : Byte) : hi8 (be16 a b) = a := by
  apply BitVec.eq_of_getLsbD_eq
  intro i hi
  simp only [be16, hi8, BitVec.getLsbD_append, BitVec.getLsbD_extractLsb']
  have h : ¬ 8 + i < 8 := by omega
  have h8 : 8 + i - 8 = i := by omega
  simp [h, h8, hi]

theorem lo8_be16 (a b : Byte) : lo8 (be16 a b) = b := by
  apply BitVec.eq_of_getLsbD_eq
  intro i hi
  simp only [be16, lo8, BitVec.getLsbD_append, BitVec.getLsbD_extractLsb']
  simp [hi]

/-- The bits of a header byte (R54, R55). -/
theorem headerByte_facts (p : BitVec 7) :
    lowBit (oddByte p) = true ∧ lowBit (evenByte p) = false ∧ upper7 (oddByte p) = p ∧
    upper7 (evenByte p) = p ∧ (oddByte p).toNat = p.toNat * 2 + 1 ∧
    (evenByte p).toNat = p.toNat * 2 := by
  revert p; decide

theorem oddByte_upper7 (b : Byte) (h : lowBit b = true) : oddByte (upper7 b) = b := by
  revert b; decide

theorem evenByte_upper7 (b : Byte) (h : lowBit b = false) : evenByte (upper7 b) = b := by
  revert b; decide

theorem oddByte_eq_addr (p : BitVec 7) : oddByte p = Config.addr ↔ p = 0x7F := by
  revert p; decide

namespace Machine

theorem decodeProtocol_odd {p : Byte} (h : lowBit p = true) (x : List Byte) :
    decodeProtocol (p :: x) = some (frameOf (zext16 p) x) := if_pos h

theorem decodeProtocol_even {p : Byte} (h : lowBit p = false) (q : Byte) (x : List Byte) :
    decodeProtocol (p :: q :: x) = some (frameOf (be16 p q) x) :=
  if_neg (Bool.eq_false_iff.1 h)

theorem decodeProtocol_even_alone {p : Byte} (h : lowBit p = false) : decodeProtocol [p] = none :=
  if_neg (Bool.eq_false_iff.1 h)

theorem pppDecode_full (x : List Byte) : pppDecode (0xFF :: 0x03 :: x) = decodeProtocol x := rfl

theorem pppDecode_control {c : Byte} (h : c ≠ 0x03) (x : List Byte) :
    pppDecode (0xFF :: c :: x) = none := if_neg h

theorem pppDecode_compressed {a : Byte} (h : a ≠ 0xFF) (hb : lowBit a = true) (x : List Byte) :
    pppDecode (a :: x) = decodeProtocol (a :: x) := (if_neg h).trans (if_pos hb)

theorem pppDecode_even {a : Byte} (hb : lowBit a = false) (x : List Byte) :
    pppDecode (a :: x) = none := by
  have h : a ≠ 0xFF := by rintro rfl; exact absurd hb (by decide)
  exact (if_neg h).trans (if_neg (Bool.eq_false_iff.1 hb))

end Machine
end Sys2Proof
end

