-- ==== Sys2Proof/Laws/Memory.lean ====
section
/-! SUPPORT. The laws of the receive buffer's memory: a read after a write, every other index alone,
and that a write keeps the one form and stays inside the buffer. -/

namespace Sys2Proof.Machine

@[simp] theorem Memory.read?_nil (a : Nat) : Memory.read? [] a = none := rfl

theorem Memory.read?_cons (k : Nat) (v : Byte) (m : Memory) (a : Nat) :
    Memory.read? ((k, v) :: m) a = if a = k then some v else Memory.read? m a := rfl

theorem Memory.read?_write_self (m : Memory) (a : Nat) (b : Byte) :
    (m.write a b).read? a = some b := by
  induction m with
  | nil => simp [Memory.write, Memory.read?]
  | cons c m ih =>
    obtain ⟨k, v⟩ := c
    simp only [Memory.write]
    split
    · simp [Memory.read?]
    · split
      · simp [Memory.read?]
      · rename_i h1 h2
        simp [Memory.read?, h2, ih]

theorem Memory.read?_write_other (m : Memory) {a x : Nat} (b : Byte) (h : x ≠ a) :
    (m.write a b).read? x = m.read? x := by
  induction m with
  | nil => simp [Memory.write, Memory.read?, h]
  | cons c m ih =>
    obtain ⟨k, v⟩ := c
    simp only [Memory.write]
    split
    · simp [Memory.read?, h]
    · split
      · rename_i h1 h2
        subst h2
        simp [Memory.read?, h]
      · simp [Memory.read?, ih]

/-- Both in one: what an index reads as after a write. -/
theorem Memory.read?_write (m : Memory) (a x : Nat) (b : Byte) :
    (m.write a b).read? x = if x = a then some b else m.read? x := by
  split
  · subst x; exact Memory.read?_write_self m a b
  · exact Memory.read?_write_other m b ‹_›

/-- A write adds no index but its own. -/
theorem Memory.mem_write {m : Memory} {a : Nat} {b : Byte} {c : Host.Cell}
    (h : c ∈ m.write a b) : c = (a, b) ∨ c ∈ m := by
  induction m with
  | nil => simpa [Memory.write] using h
  | cons d m ih =>
    obtain ⟨k, v⟩ := d
    simp only [Memory.write] at h
    split at h
    · simpa using h
    · split at h
      · rcases List.mem_cons.1 h with h | h
        · exact .inl h
        · exact .inr (List.mem_cons_of_mem _ h)
      · rcases List.mem_cons.1 h with h | h
        · exact .inr (h ▸ List.mem_cons_self)
        · exact (ih h).imp id (List.mem_cons_of_mem _)

/-- The one form, seen from its first cell: the rest is in it and every index of the rest is higher. -/
theorem Memory.wf_cons (k : Nat) (v : Byte) (m : Memory) :
    Memory.wf ((k, v) :: m) = true ↔ m.wf = true ∧ ∀ c ∈ m.head?, k < c.1 := by
  cases m with
  | nil => simp [Memory.wf]
  | cons c m => simp [Memory.wf, and_comm]

/-- A write keeps the one form. -/
theorem Memory.wf_write {m : Memory} (h : m.wf = true) (a : Nat) (b : Byte) :
    (m.write a b).wf = true := by
  induction m with
  | nil => rfl
  | cons c m ih =>
    obtain ⟨k, v⟩ := c
    have hm := (Memory.wf_cons k v m).1 h
    simp only [Memory.write]
    split
    · exact (Memory.wf_cons _ _ _).2 ⟨h, by simpa⟩
    · split
      · rename_i _ e
        exact (Memory.wf_cons _ _ _).2 ⟨hm.1, e ▸ hm.2⟩
      · refine (Memory.wf_cons _ _ _).2 ⟨ih hm.1, ?_⟩
        have hlt : k < a := by omega
        cases m with
        | nil => simpa [Memory.write] using hlt
        | cons d m =>
          obtain ⟨k', v'⟩ := d
          have hk : k < k' := hm.2 (k', v') (by simp)
          simp only [Memory.write]
          split
          · simpa using hlt
          · split
            · simpa using hlt
            · simpa using hk

@[simp] theorem Memory.writeAll_nil (m : Memory) (a : Nat) : m.writeAll a [] = m := rfl

@[simp] theorem Memory.writeAll_singleton (m : Memory) (a : Nat) (b : Byte) :
    m.writeAll a [b] = m.write a b := rfl

/-- Storing any number of bytes keeps the one form. -/
theorem Memory.wf_writeAll {m : Memory} (h : m.wf = true) (a : Nat) (bs : List Byte) :
    (m.writeAll a bs).wf = true := by
  induction bs generalizing m a with
  | nil => exact h
  | cons b bs ih => exact ih (Memory.wf_write h a b) (a + 1)

/-- The memory of a reset block is in the one form. -/
theorem State.resetWith_memory_wf (cfg : Config) : (State.resetWith cfg).rxBuf.wf = true := rfl

end Sys2Proof.Machine
end

