-- ==== Sys2Proof/Laws/Operands.lean ====
section
/-! SUPPORT. The operand bytes of a numbered operation (log 3) read back as what was written, and have
one spelling; where a counted field ends (R65). -/

namespace Sys2Proof

theorem decodeNat_cons_low {b : Byte} (h : b.toNat < 128) (rest : List Byte) :
    decodeNat (b :: rest) = some (b.toNat, rest) := if_pos h

theorem decodeNat_encodeNatFuel (fuel n : Nat) (h : n ≤ fuel) (rest : List Byte) :
    decodeNat (encodeNatFuel fuel n ++ rest) = some (n, rest) := by
  induction fuel generalizing n with
  | zero =>
    obtain rfl : n = 0 := by omega
    rfl
  | succ fuel ih =>
    simp only [encodeNatFuel]
    split
    · rename_i hn
      have hb : (BitVec.ofNat 8 n).toNat = n := by simp; omega
      simp [decodeNat, hb, hn]
    · rename_i hn
      have hb : (BitVec.ofNat 8 (128 + n % 128)).toNat = 128 + n % 128 := by simp; omega
      have h0 : n / 128 ≠ 0 := by omega
      have hn' : ¬ 128 + n % 128 < 128 := by omega
      have hv : 128 + n % 128 - 128 + 128 * (n / 128) = n := by omega
      simp only [List.cons_append, decodeNat, hb, if_neg hn', ih (n / 128) (by omega), if_neg h0, hv]

/-- A natural reads back. -/
theorem decodeNat_encodeNat (n : Nat) (rest : List Byte) :
    decodeNat (encodeNat n ++ rest) = some (n, rest) :=
  decodeNat_encodeNatFuel n n (Nat.le_refl n) rest

/-- More fuel than the number writes the same bytes. -/
theorem encodeNatFuel_eq (fuel n : Nat) (h : n ≤ fuel) : encodeNatFuel fuel n = encodeNat n := by
  induction fuel using Nat.strong_induction_on generalizing n with
  | _ fuel ih =>
    cases fuel with
    | zero => obtain rfl : n = 0 := by omega
              rfl
    | succ fuel =>
      cases n with
      | zero => rfl
      | succ n =>
        simp only [encodeNat, encodeNatFuel]
        split
        · rfl
        · rw [ih fuel (by omega) ((n + 1) / 128) (by omega), ih n (by omega) ((n + 1) / 128) (by omega)]

/-- A number of two digits or more: its low digit, then the rest. -/
theorem encodeNat_of_ge (n : Nat) (h : 128 ≤ n) :
    encodeNat n = BitVec.ofNat 8 (128 + n % 128) :: encodeNat (n / 128) := by
  obtain ⟨m, rfl⟩ : ∃ m, n = m + 1 := ⟨n - 1, by omega⟩
  have h1 : ¬ m + 1 < 128 := by omega
  rw [encodeNat, encodeNatFuel, if_neg h1, encodeNatFuel_eq _ _ (by omega)]

theorem encodeNat_of_lt (n : Nat) (h : n < 128) : encodeNat n = [BitVec.ofNat 8 n] := by
  cases n with
  | zero => rfl
  | succ n => rw [encodeNat, encodeNatFuel, if_pos h]

/-- What reads as a natural is its one spelling. -/
theorem decodeNat_spelling (bs : List Byte) (n : Nat) (rest : List Byte)
    (h : decodeNat bs = some (n, rest)) : bs = encodeNat n ++ rest := by
  induction bs generalizing n rest with
  | nil => cases h
  | cons b bs ih =>
    simp only [decodeNat] at h
    split at h
    · rename_i hb
      injection h with h
      injection h with h1 h2
      subst h1; subst h2
      rw [encodeNat_of_lt _ hb]
      simp
    · rename_i hb
      cases hd : decodeNat bs with
      | none => rw [hd] at h; cases h
      | some p =>
        obtain ⟨m, rest'⟩ := p
        rw [hd] at h
        simp only at h
        split at h
        · cases h
        · rename_i hm
          injection h with h
          injection h with h1 h2
          subst h1; subst h2
          have hlt := b.isLt
          rw [ih m rest' hd, encodeNat_of_ge (b.toNat - 128 + 128 * m) (by omega)]
          have h1 : (b.toNat - 128 + 128 * m) / 128 = m := by omega
          have h2 : 128 + (b.toNat - 128 + 128 * m) % 128 = b.toNat := by omega
          rw [h1, h2]
          simp

theorem decodeOptionsFuel_encodeOptions (fuel : Nat) (l : List TlvOption) (h : l.length ≤ fuel) :
    decodeOptionsFuel fuel (encodeOptions l) = some l := by
  induction l generalizing fuel with
  | nil => cases fuel <;> rfl
  | cons o os ih =>
    cases fuel with
    | zero => simp at h
    | succ fuel =>
      have hl : ¬ (o.value ++ encodeOptions os).length < o.value.length := by simp
      simp only [encodeOptions, List.cons_append, decodeOptionsFuel, List.append_assoc,
        decodeNat_encodeNat, if_neg hl, List.drop_left, List.take_left,
        ih fuel (by simpa using h)]

theorem encodeOptions_length (l : List TlvOption) : l.length ≤ (encodeOptions l).length := by
  induction l with
  | nil => exact Nat.le_refl 0
  | cons o os ih => simp only [encodeOptions, List.length_cons, List.length_append]; omega

/-- A list of options reads back. -/
theorem decodeOptions_encodeOptions (l : List TlvOption) :
    decodeOptions (encodeOptions l) = some l :=
  decodeOptionsFuel_encodeOptions _ l (encodeOptions_length l)

/-- What reads as a list of options is its one spelling. -/
theorem decodeOptionsFuel_spelling (fuel : Nat) (bs : List Byte) (l : List TlvOption)
    (h : decodeOptionsFuel fuel bs = some l) : bs = encodeOptions l := by
  induction fuel generalizing bs l with
  | zero =>
    cases bs with
    | nil => injection h with h; subst h; rfl
    | cons b bs => cases h
  | succ fuel ih =>
    cases bs with
    | nil => injection h with h; subst h; rfl
    | cons t rest =>
      simp only [decodeOptionsFuel] at h
      cases hd : decodeNat rest with
      | none => rw [hd] at h; cases h
      | some p =>
        obtain ⟨n, rest'⟩ := p
        rw [hd] at h
        simp only at h
        split at h
        · cases h
        · rename_i hl
          cases ho : decodeOptionsFuel fuel (rest'.drop n) with
          | none => rw [ho] at h; cases h
          | some os =>
            rw [ho] at h
            simp only at h
            injection h with h
            subst h
            have hlen : (rest'.take n).length = n := by
              rw [List.length_take]; omega
            simp only [encodeOptions, hlen, ← ih _ _ ho]
            rw [List.cons_append, List.cons_append, List.append_assoc, List.take_append_drop,
              ← decodeNat_spelling _ _ _ hd]

/-! ### Counted fields (R65) -/

theorem splitCounted_of_le {header len : Nat} {s : List Byte} (h1 : header ≤ len)
    (h2 : len ≤ s.length + header) :
    splitCounted header len s = some (s.take (len - header), s.drop (len - header)) :=
  (if_neg (Nat.not_lt.2 h1)).trans (if_neg (Nat.not_lt.2 h2))

theorem splitCounted_of_bad {header len : Nat} {s : List Byte}
    (h : len < header ∨ s.length + header < len) : splitCounted header len s = none := by
  by_cases h1 : len < header
  · exact if_pos h1
  · exact (if_neg h1).trans (if_pos (h.resolve_left h1))

/-- A field of the length counted is found, with what follows it. -/
theorem splitCounted_append {header len : Nat} {x y : List Byte} (h : len = header + x.length) :
    splitCounted header len (x ++ y) = some (x, y) := by
  have e : header + x.length - header = x.length := by omega
  subst h
  rw [splitCounted_of_le (by omega) (by rw [List.length_append]; omega), e, List.take_left,
    List.drop_left]

/-- What is found is what stood there: nothing is lost, and the length counts the field. -/
theorem splitCounted_inv {header len : Nat} {s x y : List Byte}
    (h : splitCounted header len s = some (x, y)) : s = x ++ y ∧ len = header + x.length := by
  by_cases hb : len < header ∨ s.length + header < len
  · rw [splitCounted_of_bad hb] at h; cases h
  · rw [splitCounted_of_le (by omega) (by omega)] at h
    injection h with h
    injection h with h1 h2
    subst h1 h2
    exact ⟨(List.take_append_drop _ _).symm, by rw [List.length_take]; omega⟩

end Sys2Proof
end

