-- ==== Sys2Proof/Laws/Options.lean ====
section
/-! SUPPORT. The option codec's functions, each said once: one option (R160), the loop of `OPT.PARSE`
(R161), the loop of `OPT.EMIT` (R163). -/

namespace Sys2Proof.Machine

/-- The length byte of a value that fits. -/
theorem lengthByte_toNat {n : Nat} (h : n ≤ 253) : (BitVec.ofNat 8 (2 + n)).toNat = 2 + n := by
  simp; omega

/-- What `optNext` can answer on two bytes or more. -/
theorem optNext_item {t l : Byte} {x : List Byte} (h1 : 2 ≤ l.toNat) (h2 : l.toNat ≤ x.length + 2) :
    optNext (t :: l :: x) = .item t (x.take (l.toNat - 2)) (x.drop (l.toNat - 2)) := by
  simp only [optNext, splitCounted_of_le h1 h2]

theorem optNext_bad {t l : Byte} {x : List Byte} (h : l.toNat < 2 ∨ x.length + 2 < l.toNat) :
    optNext (t :: l :: x) = .malformed := by
  simp only [optNext, splitCounted_of_bad h]

/-- An item found is the layout of its option, followed by the rest. -/
theorem optNext_item_inv {s : List Byte} {t : Byte} {v rest : List Byte}
    (h : optNext s = .item t v rest) :
    s = t :: BitVec.ofNat 8 (2 + v.length) :: (v ++ rest) ∧ v.length ≤ 253 := by
  match s, h with
  | t' :: l :: x, h =>
    simp only [optNext] at h
    split at h
    · rename_i v' rest' hs
      injection h with h1 h2 h3
      subst h1 h2 h3
      obtain ⟨hx, hl⟩ := splitCounted_inv hs
      have := l.isLt
      rw [← hx, ← hl, BitVec.ofNat_toNat, BitVec.setWidth_eq]
      exact ⟨rfl, by omega⟩
    · cases h

theorem optNext_layout {v : List Byte} (h : v.length ≤ 253) (t : Byte) (rest : List Byte) :
    optNext (t :: BitVec.ofNat 8 (2 + v.length) :: (v ++ rest)) = .item t v rest := by
  simp only [optNext, splitCounted_append (lengthByte_toNat h)]

/-- Each option takes at least two bytes off the list. -/
theorem optNext_shorter {s : List Byte} {t : Byte} {v rest : List Byte}
    (h : optNext s = .item t v rest) : rest.length + 2 ≤ s.length := by
  rw [(optNext_item_inv h).1]
  simp only [List.length_cons, List.length_append]
  omega

theorem optNext_done_inv {s : List Byte} (h : optNext s = .done) : s = [] := by
  match s, h with
  | [], _ => rfl
  | t :: l :: x, h =>
    by_cases hb : l.toNat < 2 ∨ x.length + 2 < l.toNat
    · rw [optNext_bad hb] at h; cases h
    · rw [optNext_item (by omega) (by omega)] at h; cases h

/-- Fuel above the length is enough, however much. -/
theorem optParseLoop_fuel (f g : Nat) (s : List Byte) (out : List TlvOption) (hf : s.length < f)
    (hg : s.length < g) : optParseLoop f s out = optParseLoop g s out := by
  induction f generalizing g s out with
  | zero => omega
  | succ f ih =>
    cases g with
    | zero => omega
    | succ g =>
      simp only [optParseLoop]
      cases h : optNext s with
      | done => rfl
      | malformed => rfl
      | item t v rest =>
        have := optNext_shorter h
        exact ih g rest _ (by omega) (by omega)

/-- What was read before is kept in front. -/
theorem optParseLoop_out (f : Nat) (s : List Byte) (out : List TlvOption) :
    optParseLoop f s out = (optParseLoop f s []).map (out ++ ·) := by
  induction f generalizing s out with
  | zero => rfl
  | succ f ih =>
    simp only [optParseLoop]
    cases h : optNext s with
    | done => simp
    | malformed => rfl
    | item t v rest =>
      simp only
      rw [ih rest (out ++ _), ih rest ([] ++ _)]
      cases optParseLoop f rest [] <;> simp

/-- `optParse` by the first option (R161). -/
theorem optParse_eq (s : List Byte) :
    optParse s =
      match optNext s with
      | .done => some []
      | .malformed => none
      | .item t v rest => (optParse rest).map ({ type := t, value := v } :: ·) := by
  rw [optParse, optParseLoop]
  cases h : optNext s with
  | done => rfl
  | malformed => rfl
  | item t v rest =>
    have := optNext_shorter h
    simp only
    rw [optParseLoop_out, optParse,
      optParseLoop_fuel s.length (rest.length + 1) _ _ (by omega) (by omega)]
    simp

theorem valuesFit_iff (l : List TlvOption) : valuesFit l = true ↔ ValuesFit l := by
  rw [valuesFit, List.all_eq_true]
  exact forall_congr' fun o => forall_congr' fun _ => decide_eq_true_iff

/-- The loop of `OPT.EMIT` from a buffer within the capacity (R163). -/
theorem optEmitLoop_eq (cap : Nat) (l : List TlvOption) (buf : List Byte) (hb : buf.length ≤ cap) :
    optEmitLoop cap buf l =
      if buf.length + (optionLayout l).length ≤ cap then some (buf ++ optionLayout l) else none := by
  induction l generalizing buf with
  | nil => simp [optEmitLoop, optionLayout, hb]
  | cons o os ih =>
    have hlen : (optionLayout (o :: os)).length = 2 + o.value.length + (optionLayout os).length := by
      simp only [optionLayout, List.length_cons, List.length_append]; omega
    simp only [optEmitLoop, optPut]
    by_cases h : cap < buf.length + (2 + o.value.length)
    · have h' : ¬ buf.length + (optionLayout (o :: os)).length ≤ cap := by omega
      rw [if_pos h, if_neg h']
    · have hn : (buf ++ [o.type, BitVec.ofNat 8 (2 + o.value.length)] ++ o.value).length =
          buf.length + (2 + o.value.length) := by
        simp only [List.length_append, List.length_cons, List.length_nil]; omega
      rw [if_neg h]
      simp only
      rw [ih _ (by omega), hn, hlen, Nat.add_assoc]
      simp [optionLayout]

end Sys2Proof.Machine
end

