-- ==== Sys2Proof/Laws/PerInstr.lean ====
section
/-! SUPPORT. A statement for all instructions, made constructor by constructor: every instruction is
encoded in at least one byte (spec/30_encoding.md R62, R68: no row of the table is empty). -/

namespace Sys2Proof.Laws.EncodeNonempty

/-- The bytes of the encoding are not empty. -/
def Statement (i : Instr) : Prop := (encode i).2 ≠ []

theorem fcsInit : Statement .fcsInit := List.cons_ne_nil _ _
theorem fcsUpdate (acc : Half) (b : Byte) : Statement (.fcsUpdate acc b) := List.cons_ne_nil _ _
theorem fcsRun (acc : Half) (s : List Byte) : Statement (.fcsRun acc s) := List.cons_ne_nil _ _
theorem fcsFinal (acc : Half) : Statement (.fcsFinal acc) := List.cons_ne_nil _ _
theorem fcsCheck (acc : Half) : Statement (.fcsCheck acc) := List.cons_ne_nil _ _
theorem escNeeds (b : Byte) : Statement (.escNeeds b) := List.cons_ne_nil _ _
theorem escEnc (b : Byte) : Statement (.escEnc b) := List.cons_ne_nil _ _
theorem escStuff (s : List Byte) : Statement (.escStuff s) := List.cons_ne_nil _ _
theorem pppEncode (protocol : Half) (payload : List Byte) :
    Statement (.pppEncode protocol payload) := List.cons_ne_nil _ _
theorem txWrite (protocol : Half) (payload : List Byte) :
    Statement (.txWrite protocol payload) := List.cons_ne_nil _ _
theorem rxPush (b : Byte) : Statement (.rxPush b) := List.cons_ne_nil _ _
theorem pppDecode (d : List Byte) : Statement (.pppDecode d) := List.cons_ne_nil _ _
theorem escUnstuff (s : List Byte) : Statement (.escUnstuff s) := List.cons_ne_nil _ _
theorem optNext (s : List Byte) : Statement (.optNext s) := List.cons_ne_nil _ _
theorem optParse (s : List Byte) : Statement (.optParse s) := List.cons_ne_nil _ _
theorem optPut (buf : List Byte) (cap : Nat) (type : Byte) (value : List Byte) :
    Statement (.optPut buf cap type value) := List.cons_ne_nil _ _
theorem optEmit (cap : Nat) (list : List TlvOption) :
    Statement (.optEmit cap list) := List.cons_ne_nil _ _
theorem rxIdleFlag : Statement .rxIdleFlag := List.cons_ne_nil _ _
theorem rxIdleEsc : Statement .rxIdleEsc := List.cons_ne_nil _ _
theorem rxIdleData (b : Byte) : Statement (.rxIdleData b) := List.cons_ne_nil _ _
theorem rxFrameStartFlag : Statement .rxFrameStartFlag := List.cons_ne_nil _ _
theorem rxFrameStartEsc : Statement .rxFrameStartEsc := List.cons_ne_nil _ _
theorem rxFrameStartData (b : Byte) : Statement (.rxFrameStartData b) := List.cons_ne_nil _ _
theorem rxInFrameFlag : Statement .rxInFrameFlag := List.cons_ne_nil _ _
theorem rxInFrameEsc : Statement .rxInFrameEsc := List.cons_ne_nil _ _
theorem rxInFrameData (b : Byte) : Statement (.rxInFrameData b) := List.cons_ne_nil _ _
theorem rxInFrameEscapeFlag : Statement .rxInFrameEscapeFlag := List.cons_ne_nil _ _
theorem rxInFrameEscapeEsc : Statement .rxInFrameEscapeEsc := List.cons_ne_nil _ _
theorem rxInFrameEscapeData (b : Byte) : Statement (.rxInFrameEscapeData b) := List.cons_ne_nil _ _
theorem escapePair (b : Byte) : Statement (.escapePair b) := List.cons_ne_nil _ _
theorem headerFull (p : BitVec 7) (q : Byte) (body : List Byte) :
    Statement (.headerFull p q body) := List.cons_ne_nil _ _
theorem headerPfc (p : BitVec 7) (body : List Byte) :
    Statement (.headerPfc p body) := List.cons_ne_nil _ _
theorem headerAcfcPfc (p : BitVec 7) (body : List Byte) :
    Statement (.headerAcfcPfc p body) := List.cons_ne_nil _ _
theorem fcsField (low : Byte) (high : Byte) : Statement (.fcsField low high) := List.cons_ne_nil _ _
theorem optionTlv (type : Byte) (length : Byte) (tail : List Byte) :
    Statement (.optionTlv type length tail) := List.cons_ne_nil _ _
theorem controlPacket (code : Byte) (id : Byte) (len : Half) (tail : List Byte) :
    Statement (.controlPacket code id len tail) := List.cons_ne_nil _ _

end Sys2Proof.Laws.EncodeNonempty
end

