-- ==== Sys2Proof/Laws/Reader.lean ====
section
/-! SUPPORT. The reader's procedures, each said once: `Append` (R134), `Complete` (R135), one byte
pushed (R120, R139), a byte stream pushed (R138). -/

namespace Sys2Proof.Machine

/-! ### Byte classes -/

theorem classify_flag : classify 0x7E = .flag := rfl
theorem classify_esc : classify 0x7D = .esc := rfl

theorem classify_data {b : Byte} (h1 : b ≠ 0x7E) (h2 : b ≠ 0x7D) : classify b = .data :=
  (if_neg h1).trans (if_neg h2)

theorem classify_eq_flag {b : Byte} : classify b = .flag ↔ b = 0x7E := by
  by_cases h1 : b = 0x7E
  · subst h1; exact ⟨fun _ => rfl, fun _ => rfl⟩
  · by_cases h2 : b = 0x7D
    · subst h2; exact ⟨fun h => (by cases h), fun h => absurd h h1⟩
    · rw [classify_data h1 h2]; exact ⟨fun h => (by cases h), fun h => absurd h h1⟩

theorem classify_eq_esc {b : Byte} : classify b = .esc ↔ b = 0x7D := by
  by_cases h1 : b = 0x7E
  · subst h1; exact ⟨fun h => (by cases h), fun h => (by cases h)⟩
  · by_cases h2 : b = 0x7D
    · subst h2; exact ⟨fun _ => rfl, fun _ => rfl⟩
    · rw [classify_data h1 h2]; exact ⟨fun h => (by cases h), fun h => absurd h h2⟩

theorem classify_eq_data {b : Byte} : classify b = .data ↔ b ≠ 0x7E ∧ b ≠ 0x7D := by
  constructor
  · intro h
    refine ⟨fun hb => ?_, fun hb => ?_⟩
    · rw [classify_eq_flag.2 hb] at h; cases h
    · rw [classify_eq_esc.2 hb] at h; cases h
  · rintro ⟨h1, h2⟩
    exact classify_data h1 h2

/-! ### Append -/

/-- The state after `v` was stored at `rx_buf[rx_len]`. -/
def State.stored (s : State) (v : Byte) : State :=
  { s with rxBuf := s.rxBuf.write s.rxLen v, rxLen := s.rxLen + 1, rxState := .inFrame }

@[simp] theorem State.stored_rxState (s : State) (v : Byte) : (s.stored v).rxState = .inFrame := rfl
@[simp] theorem State.stored_rxBuf (s : State) (v : Byte) :
    (s.stored v).rxBuf = s.rxBuf.write s.rxLen v := rfl
@[simp] theorem State.stored_rxLen (s : State) (v : Byte) : (s.stored v).rxLen = s.rxLen + 1 := rfl
@[simp] theorem State.stored_fcsErrCnt (s : State) (v : Byte) :
    (s.stored v).fcsErrCnt = s.fcsErrCnt := rfl
@[simp] theorem State.stored_txAccm (s : State) (v : Byte) : (s.stored v).txAccm = s.txAccm := rfl
@[simp] theorem State.stored_cfg (s : State) (v : Byte) : (s.stored v).cfg = s.cfg := rfl
@[simp] theorem State.stored_rxEpoch (s : State) (v : Byte) :
    (s.stored v).rxEpoch = s.rxEpoch := rfl
@[simp] theorem State.stored_pending (s : State) (v : Byte) :
    (s.stored v).pending = s.pending := rfl
@[simp] theorem State.stored_results (s : State) (v : Byte) :
    (s.stored v).results = s.results := rfl

theorem State.stored_rxByte (s : State) (v : Byte) (a : Nat) :
    (s.stored v).rxByte a = if a = s.rxLen then v else s.rxByte a := by
  simp only [State.rxByte, State.stored_rxBuf, Memory.read?_write]
  split <;> rfl

theorem appendByte_of_lt {s : State} (v : Byte) (h : s.rxLen < s.cfg.rxCap) :
    appendByte v s = .next (s.stored v, .none) := by
  have h1 : s.rxLen ≠ s.cfg.rxCap := by omega
  have h2 : s.rxLen + [v].length ≤ s.cfg.rxCap := h
  simp only [appendByte, memWrite, if_neg h1, if_pos h2]
  rfl

theorem appendByte_of_eq {s : State} (v : Byte) (h : s.rxLen = s.cfg.rxCap) :
    appendByte v s = .next (s.raise .frameTooLong, .frameTooLong) := by
  simp [appendByte, h]

theorem appendByte_of_gt {s : State} (v : Byte) (h : s.cfg.rxCap < s.rxLen) :
    appendByte v s = .fault .rxBufOutOfRange := by
  have h1 : s.rxLen ≠ s.cfg.rxCap := by omega
  have h2 : ¬ s.rxLen + 1 ≤ s.cfg.rxCap := by omega
  simp [appendByte, memWrite, h1, h2]

/-- R134, read backwards. -/
theorem appendByte_cases {v : Byte} {s t : State} {e : Event} (h : appendByte v s = .next (t, e)) :
    (s.rxLen < s.cfg.rxCap ∧ t = s.stored v ∧ e = .none) ∨
    (s.rxLen = s.cfg.rxCap ∧ t = s.raise .frameTooLong ∧ e = .frameTooLong) := by
  rcases lt_trichotomy s.rxLen s.cfg.rxCap with hl | hl | hl
  · rw [appendByte_of_lt v hl] at h
    injection h with h
    injection h with h1 h2
    exact .inl ⟨hl, h1.symm, h2.symm⟩
  · rw [appendByte_of_eq v hl] at h
    injection h with h
    injection h with h1 h2
    exact .inr ⟨hl, h1.symm, h2.symm⟩
  · rw [appendByte_of_gt v hl] at h
    cases h

/-! ### Complete -/

@[simp] theorem State.content_length (s : State) : s.content.length = s.rxLen := by
  simp [State.content]

theorem complete_of_le {s : State} (h : s.rxLen ≤ s.cfg.rxCap) :
    complete s = .next (completeContent s.content s) := by
  simp [complete, memRead, h, State.content]

theorem complete_of_gt {s : State} (h : s.cfg.rxCap < s.rxLen) :
    complete s = .fault .rxBufOutOfRange := by
  have h1 : ¬ s.rxLen ≤ s.cfg.rxCap := by omega
  simp [complete, memRead, h1]

/-- R135, every outcome: what becomes of the reader and which event, by the three checks. -/
theorem completeContent_cases (c : List Byte) (s : State) :
    (c.length < 4 ∧ completeContent c s = (s.frameDone, .none)) ∨
    (4 ≤ c.length ∧ fcsRun 0xFFFF c ≠ 0xF0B8 ∧
      completeContent c s = (s.raise .fcsMismatch, .none)) ∨
    (4 ≤ c.length ∧ fcsRun 0xFFFF c = 0xF0B8 ∧ pppDecode (c.take (c.length - 2)) = none ∧
      completeContent c s = (s.frameDone, .none)) ∨
    (∃ f, 4 ≤ c.length ∧ fcsRun 0xFFFF c = 0xF0B8 ∧
      pppDecode (c.take (c.length - 2)) = some f ∧
      completeContent c s = (s.frameDone, .frame f)) := by
  by_cases h1 : c.length < 4
  · exact .inl ⟨h1, by simp [completeContent, Config.minFrame, h1]⟩
  · have h1' : 4 ≤ c.length := by omega
    by_cases h2 : fcsRun 0xFFFF c = 0xF0B8
    · have h2' : fcsCheck (fcsRun Config.fcsInit c) = true := by
        simpa [fcsCheck, Config.fcsInit, Config.fcsGood] using h2
      cases h3 : pppDecode (c.take (c.length - 2)) with
      | none =>
        exact .inr (.inr (.inl ⟨h1', h2, h3 ▸ rfl, by
          simp [completeContent, Config.minFrame, h1, h2', h3]⟩))
      | some f =>
        exact .inr (.inr (.inr ⟨f, h1', h2, h3 ▸ rfl, by
          simp [completeContent, Config.minFrame, h1, h2', h3]⟩))
    · have h2' : fcsCheck (fcsRun Config.fcsInit c) = false := by
        simpa [fcsCheck, Config.fcsInit, Config.fcsGood] using h2
      exact .inr (.inl ⟨h1', h2, by simp [completeContent, Config.minFrame, h1, h2']⟩)

/-! ### One byte -/

/-- The transitions that only change `rx_state` (R122 to R126, R129). -/
def moveTarget : RxState → ByteClass → Option RxState
  | .idle, .flag => some .frameStart
  | .idle, .esc => some .idle
  | .idle, .data => some .idle
  | .frameStart, .flag => some .frameStart
  | .frameStart, .esc => some .inFrameEscape
  | .frameStart, .data => none
  | .inFrame, .flag => none
  | .inFrame, .esc => some .inFrameEscape
  | .inFrame, .data => none
  | .inFrameEscape, _ => none

/-- The byte a storing transition appends (R127, R130 to R133). -/
def appendedByte : RxState → Byte → Byte
  | .inFrameEscape, b => b ^^^ 0x20
  | _, b => b

/-- `RX.PUSH` in three kinds of transition: move, complete (a flag in `InFrame`), append. -/
theorem pushByte_eq (b : Byte) (s : State) :
    pushByte b s =
      match moveTarget s.rxState (classify b) with
      | some st => .next ({ s with rxState := st }, .none)
      | none =>
        if s.rxState = .inFrame ∧ b = 0x7E then complete s
        else appendByte (appendedByte s.rxState b) s := by
  obtain ⟨st, buf, len, cnt, accm, cfg, epoch, pend, res⟩ := s
  cases hc : classify b <;> cases st <;>
    simp only [pushByte, hc, moveTarget, idleFlag, idleEsc, idleData, frameStartFlag, frameStartEsc,
      frameStartData, inFrameFlag, inFrameEsc, inFrameData, inFrameEscapeFlag, inFrameEscapeEsc,
      inFrameEscapeData, appendedByte]
  all_goals
    first
    | (have hb := classify_eq_flag.1 hc; subst hb; simp [Config.flag, Config.xorMask])
    | (have hb := classify_eq_esc.1 hc; subst hb; simp [Config.esc, Config.xorMask])
    | (simp [Config.xorMask]; done)
    | (simp only [true_and]; rw [if_neg (classify_eq_data.1 hc).1])

/-- R120, read backwards: what one `RX.PUSH` that answers can have done. -/
theorem pushByte_cases {b : Byte} {s t : State} {e : Event} (h : pushByte b s = .next (t, e)) :
    (∃ st, moveTarget s.rxState (classify b) = some st ∧ t = { s with rxState := st } ∧ e = .none) ∨
    (s.rxState = .inFrame ∧ b = 0x7E ∧ s.rxLen ≤ s.cfg.rxCap ∧
      (t, e) = completeContent s.content s) ∨
    (moveTarget s.rxState (classify b) = none ∧ ¬ (s.rxState = .inFrame ∧ b = 0x7E) ∧
      s.rxLen < s.cfg.rxCap ∧ t = s.stored (appendedByte s.rxState b) ∧ e = .none) ∨
    (moveTarget s.rxState (classify b) = none ∧ ¬ (s.rxState = .inFrame ∧ b = 0x7E) ∧
      s.rxLen = s.cfg.rxCap ∧ t = s.raise .frameTooLong ∧ e = .frameTooLong) := by
  rw [pushByte_eq] at h
  split at h
  · rename_i st hm
    injection h with h
    injection h with h1 h2
    exact .inl ⟨st, hm, h1.symm, h2.symm⟩
  · rename_i hm
    split at h
    · rename_i hf
      rcases Nat.lt_or_ge s.cfg.rxCap s.rxLen with hl | hl
      · rw [complete_of_gt hl] at h
        cases h
      · rw [complete_of_le hl] at h
        injection h with h
        exact .inr (.inl ⟨hf.1, hf.2, hl, h.symm⟩)
    · rename_i hf
      rcases appendByte_cases h with ⟨hl, h1, h2⟩ | ⟨hl, h1, h2⟩
      · exact .inr (.inr (.inl ⟨hm, hf, hl, h1, h2⟩))
      · exact .inr (.inr (.inr ⟨hm, hf, hl, h1, h2⟩))

/-- A push answers whenever `rx_len` is within the buffer (R120: the operation is total). -/
theorem pushByte_answers (b : Byte) {s : State} (h : s.rxLen ≤ s.cfg.rxCap) :
    ∃ t e, pushByte b s = .next (t, e) := by
  rw [pushByte_eq]
  split
  · exact ⟨_, _, rfl⟩
  · split
    · exact ⟨_, _, complete_of_le h⟩
    · rcases Nat.lt_or_ge s.rxLen s.cfg.rxCap with hl | hl
      · exact ⟨_, _, appendByte_of_lt _ hl⟩
      · exact ⟨_, _, appendByte_of_eq _ (by omega)⟩

/-- A push never refuses. -/
theorem pushByte_ne_refused (b : Byte) (s : State) (r : Refusal) : pushByte b s ≠ .refused r := by
  rw [pushByte_eq]
  split
  · simp
  · split
    · rcases Nat.lt_or_ge s.cfg.rxCap s.rxLen with hl | hl
      · simp [complete_of_gt hl]
      · simp [complete_of_le hl]
    · rcases lt_trichotomy s.rxLen s.cfg.rxCap with hl | hl | hl
      · simp [appendByte_of_lt _ hl]
      · simp [appendByte_of_eq _ hl]
      · simp [appendByte_of_gt _ hl]

/-- The frame of one push: the constants, the queue and the results are left alone; and unless it ends
or drops a frame (which leaves all of the buffer unspecified, 93 U9), no byte of the buffer but the
one at `rx_len` changes. -/
theorem pushByte_frame {b : Byte} {s t : State} {e : Event} (h : pushByte b s = .next (t, e)) :
    SameRest s t ∧ t.results = s.results ∧
    (e ≠ .frameTooLong → ¬ (s.rxState = .inFrame ∧ b = 0x7E) →
      ∀ a, a ≠ s.rxLen → t.rxByte a = s.rxByte a) := by
  rcases pushByte_cases h with ⟨st, -, rfl, -⟩ | ⟨h1, h2, -, hc⟩ | ⟨-, -, -, rfl, -⟩ | ⟨-, -, -, rfl, he⟩
  · exact ⟨⟨rfl, rfl, rfl⟩, rfl, fun _ _ _ _ => rfl⟩
  · rcases completeContent_cases s.content s with ⟨-, h⟩ | ⟨-, -, h⟩ | ⟨-, -, -, h⟩ | ⟨f, -, -, -, h⟩ <;>
      (rw [h] at hc; injection hc with k1 k2; subst k1
       exact ⟨⟨rfl, rfl, rfl⟩, rfl, fun _ hn => absurd ⟨h1, h2⟩ hn⟩)
  · exact ⟨⟨rfl, rfl, rfl⟩, rfl, fun _ _ a ha => by simp [State.stored_rxByte, ha]⟩
  · exact ⟨⟨rfl, rfl, rfl⟩, rfl, fun hn => absurd he hn⟩

/-! ### What the host sees of a push -/

theorem deliver_next {o : Host.Outcome (State × Event) Fault Refusal} {t : State}
    (h : deliver o = .next t) : ∃ u e, o = .next (u, e) ∧ t = u.emit (.event e) := by
  cases o with
  | next p => obtain ⟨u, e⟩ := p; injection h with h; exact ⟨u, e, rfl, h.symm⟩
  | fault f => cases h
  | refused r => cases h

@[simp] theorem deliver_of_next (u : State) (e : Event) :
    deliver (.next (u, e)) = .next (u.emit (.event e)) := rfl

/-! ### Byte streams -/

@[simp] theorem rxFeedAll_nil (s : State) : rxFeedAll [] s = .next (s, []) := rfl

theorem rxFeedAll_cons_none {b : Byte} {bs : List Byte} {s t : State}
    (h : pushByte b s = .next (t, .none)) : rxFeedAll (b :: bs) s = rxFeedAll bs t := by
  simp only [rxFeedAll, h, if_true]
  cases rxFeedAll bs t <;> rfl

theorem rxFeedAll_cons_event {b : Byte} {bs : List Byte} {s t u : State} {e : Event}
    {es : List Event} (h : pushByte b s = .next (t, e)) (he : e ≠ .none)
    (hr : rxFeedAll bs t = .next (u, es)) : rxFeedAll (b :: bs) s = .next (u, e :: es) := by
  simp only [rxFeedAll, h, hr, if_neg he]

/-- Streams compose (R38: each operation sees the full effect of all earlier ones). -/
theorem rxFeedAll_append {x y : List Byte} {s t : State} {es : List Event}
    (h : rxFeedAll x s = .next (t, es)) {u : State} {fs : List Event}
    (k : rxFeedAll y t = .next (u, fs)) : rxFeedAll (x ++ y) s = .next (u, es ++ fs) := by
  induction x generalizing s es with
  | nil => simp at h; obtain ⟨rfl, rfl⟩ := h; simpa using k
  | cons b x ih =>
    simp only [rxFeedAll] at h
    cases hp : pushByte b s with
    | next p =>
      obtain ⟨s', e⟩ := p
      rw [hp] at h
      simp only at h
      cases hr : rxFeedAll x s' with
      | next q =>
        obtain ⟨t', es'⟩ := q
        rw [hr] at h
        simp only at h
        injection h with h
        injection h with h1 h2
        subst h1
        have := ih hr
        simp only [List.cons_append, rxFeedAll, hp, this]
        by_cases he : e = .none
        · simp [he] at h2 ⊢; exact h2
        · simp [he] at h2 ⊢; rw [← h2]; simp
      | fault f => rw [hr] at h; cases h
      | refused r => rw [hr] at h; cases h
    | fault f => rw [hp] at h; cases h
    | refused r => rw [hp] at h; cases h

end Sys2Proof.Machine
end

