-- ==== Sys2Proof/Laws/Step.lean ====
section
/-! SUPPORT. What one step can do (spec/00_scope.md R5, spec/70_reset_and_hazards.md R251), and the
shapes of the meanings the proofs about every instruction go by. -/

namespace Sys2Proof.Machine

/-- A step that answers: the block waited, or the oldest operation ran. -/
theorem step_next_cases {s t : State} (h : step s = .next t) :
    (s.pending = [] ∧ t = s) ∨
    ∃ it rest i, s.pending = it :: rest ∧ fetch it s = .ok i ∧
      exec i { s with pending := rest } = .next t := by
  unfold step at h
  split at h
  · rename_i hp
    injection h with h
    exact .inl ⟨hp, h.symm⟩
  · rename_i it rest hp
    split at h
    · rename_i i hf
      exact .inr ⟨it, rest, i, hp, hf, h⟩
    · cases h

/-- Every instruction is pure, a transition row, `RX.PUSH` or `ESCAPE.PAIR` (R7, R10). -/
theorem instr_kinds (i : Instr) :
    i.isPure = true ∨ i.isTransition = true ∨ (∃ b, i = .rxPush b) ∨ (∃ b, i = .escapePair b) := by
  cases i
  case rxPush b => exact .inr (.inr (.inl ⟨b, rfl⟩))
  case escapePair b => exact .inr (.inr (.inr ⟨b, rfl⟩))
  all_goals first | exact .inl rfl | exact .inr (.inl rfl)

theorem exec_rxPush (b : Byte) (s : State) : exec (.rxPush b) s = deliver (pushByte b s) := rfl

/-- `ESCAPE.PAIR` that answers is two pushes that answer. -/
theorem exec_escapePair_inv {s t : State} {b : Byte} (h : exec (.escapePair b) s = .next t) :
    ∃ u, exec (.rxPush 0x7D) s = .next u ∧ exec (.rxPush b) u = .next t := by
  have e : exec (.escapePair b) s =
      match exec (.rxPush 0x7D) s with
      | .next s' => exec (.rxPush b) s'
      | .fault f => .fault f
      | .refused r => .refused r := rfl
  rw [e] at h
  split at h
  · rename_i u hu; exact ⟨u, hu, h⟩
  · cases h
  · cases h

/-- One push with the host's queue and results replaced does the same to the reader. -/
theorem pushByte_queue (b : Byte) (s : State) (p : List Issue) (r : List Result) :
    pushByte b { s with pending := p, results := r } =
      match pushByte b s with
      | .next (t, e) => .next ({ t with pending := p, results := r }, e)
      | .fault f => .fault f
      | .refused q => .refused q := by
  rw [pushByte_eq, pushByte_eq]
  cases moveTarget s.rxState (classify b)
  · simp only
    split
    · rcases Nat.lt_or_ge s.cfg.rxCap s.rxLen with hl | hl
      · rw [complete_of_gt hl, complete_of_gt (by exact hl)]
      · rw [complete_of_le hl, complete_of_le (by exact hl)]
        show Host.Outcome.next (completeContent s.content _) = _
        unfold completeContent
        split
        · rfl
        · split
          · split <;> rfl
          · rfl
    · rcases lt_trichotomy s.rxLen s.cfg.rxCap with hl | hl | hl
      · rw [appendByte_of_lt _ hl, appendByte_of_lt _ (by exact hl)]; rfl
      · rw [appendByte_of_eq _ hl, appendByte_of_eq _ (by exact hl)]; rfl
      · rw [appendByte_of_gt _ hl, appendByte_of_gt _ (by exact hl)]
  · simp only

/-- The content after one more byte was stored. -/
theorem State.content_stored (s : State) (v : Byte) : (s.stored v).content = s.content ++ [v] := by
  simp only [State.content, State.stored_rxLen, List.range_succ, List.map_append, List.map_cons,
    List.map_nil]
  congr 1
  · apply List.map_congr_left
    intro a ha
    rw [List.mem_range] at ha
    rw [State.stored_rxByte, if_neg (by omega)]
  · rw [State.stored_rxByte, if_pos rfl]

end Sys2Proof.Machine
end

