-- ==== Sys2Proof/Laws/Writer.lean ====
section
/-! SUPPORT. The writer's functions, each said once: the escape predicate and one escaped byte (R100,
R101), a stuffed sequence (R102), and that it is one `Unstuffs` accepts (R137). -/

namespace Sys2Proof

/-- The escape predicate as a proposition (R100). -/
theorem escNeeds_iff (accm : BitVec 32) (b : Byte) :
    escNeeds accm b = true ↔
      b = 0x7E ∨ b = 0x7D ∨ (b.toNat < 0x20 ∧ accm.getLsbD b.toNat = true) := by
  simp [escNeeds, Config.flag, Config.esc, or_assoc]

namespace Machine

theorem escEnc_needed {accm : BitVec 32} {b : Byte} (h : escNeeds accm b = true) :
    escEnc accm b = [0x7D, b ^^^ 0x20] := if_pos h

theorem escEnc_plain {accm : BitVec 32} {b : Byte} (h : escNeeds accm b = false) :
    escEnc accm b = [b] := if_neg (Bool.eq_false_iff.1 h)

/-- A byte that goes out as itself is neither of the specials. -/
theorem plain_ne_special {accm : BitVec 32} {b : Byte} (h : escNeeds accm b = false) :
    b ≠ 0x7D ∧ b ≠ 0x7E := by
  have h' := mt (escNeeds_iff accm b).2 (Bool.eq_false_iff.1 h)
  exact ⟨fun hb => h' (.inr (.inl hb)), fun hb => h' (.inl hb)⟩

/-- The second byte of a pair (R106). -/
theorem pairByte_range (b : Byte) (h : b = 0x7E ∨ b = 0x7D ∨ b.toNat < 0x20) :
    b ^^^ 0x20 = 0x5D ∨ b ^^^ 0x20 = 0x5E ∨
      (0x20 ≤ (b ^^^ 0x20).toNat ∧ (b ^^^ 0x20).toNat ≤ 0x3F) := by
  revert b; decide

theorem escEnc_length (accm : BitVec 32) (b : Byte) :
    1 ≤ (escEnc accm b).length ∧ (escEnc accm b).length ≤ 2 := by
  cases h : escNeeds accm b
  · rw [escEnc_plain h]; exact ⟨Nat.le_refl 1, Nat.le_succ 1⟩
  · rw [escEnc_needed h]; exact ⟨Nat.le_succ 1, Nat.le_refl 2⟩

theorem escStuff_flatMap (accm : BitVec 32) (x : List Byte) :
    escStuff accm x = x.flatMap (escEnc accm) := by
  induction x with
  | nil => rfl
  | cons b x ih => rw [escStuff, ih, List.flatMap_cons]

/-- Undoing the inversion of bit 5. -/
theorem xor_mask_twice (b : Byte) : b ^^^ 0x20 ^^^ 0x20 = b := by
  rw [BitVec.xor_assoc, BitVec.xor_self, BitVec.xor_zero]

/-- A stuffed sequence stands for what was stuffed. -/
theorem escStuff_unstuffs (accm : BitVec 32) (x : List Byte) : Unstuffs (escStuff accm x) x := by
  induction x with
  | nil => exact .nil
  | cons b x ih =>
    rw [escStuff]
    cases h : escNeeds accm b
    · rw [escEnc_plain h]
      exact .plain b (plain_ne_special h).1 (plain_ne_special h).2 ih
    · rw [escEnc_needed h]
      have := Unstuffs.pair (b ^^^ 0x20) ih
      rwa [xor_mask_twice] at this

/-- The content of a frame is its header and payload and two bytes of FCS. -/
theorem frameContent_length (protocol : Half) (payload : List Byte) :
    (frameContent protocol payload).length = payload.length + 6 := by
  simp [frameContent, pppEncode]

/-- Without its FCS the content is what `PPP.ENCODE` built. -/
theorem frameContent_take (protocol : Half) (payload : List Byte) :
    (frameContent protocol payload).take ((frameContent protocol payload).length - 2) =
      pppEncode protocol payload := by
  simp [frameContent]

end Machine
end Sys2Proof
end

