-- ==== Sys2Proof/Tests/Slice0.lean ====
section
/-! SUPPORT. The model's own tests: ill-formed terms are refused, words written out from the spec's
encodings decode to what they stand for, one step of each instruction on values of
spec/95_test_vectors.md, and for every obligation with hypotheses a state and operands that meet them. -/

namespace Sys2Proof.Tests

open Sys2Proof.Machine

/-! ### Helpers -/

/-- Consecutive cells from an index on. -/
def cells : Nat → List Byte → Memory
  | _, [] => []
  | a, b :: bs => (a, b) :: cells (a + 1) bs

/-- A block with `RX_CAP = cap`, in reader state `st`, that has stored `content`. -/
def block (cap : Nat) (st : RxState) (content : List Byte) : State :=
  { State.resetWith { rxCap := cap } with
    rxState := st, rxBuf := cells 0 content, rxLen := content.length }

/-- That block with operations issued. -/
def issuing (s : State) (p : List Issue) : State := { s with pending := p }

/-- The results of an outcome that is a next state. -/
def resultsOf : Host.Outcome State Fault Refusal → Option (List Result)
  | .next t => some t.results
  | .fault _ => none
  | .refused _ => none

/-- The refusal of an outcome that is one. -/
def refusalOf : Host.Outcome State Fault Refusal → Option Refusal
  | .next _ => none
  | .fault _ => none
  | .refused r => some r

/-- What a test looks at in the reader. -/
structure Reader where
  st : RxState
  len : Nat
  cnt : Nat
  bytes : List (Option Byte)
  deriving DecidableEq, Repr

/-- The reader after an outcome: state, length, counter, and the first `n` bytes of the buffer. -/
def readerOf (n : Nat) : Host.Outcome State Fault Refusal → Option Reader
  | .next t => some ⟨t.rxState, t.rxLen, t.fcsErrCnt, (List.range n).map t.rxBuf.read?⟩
  | .fault _ => none
  | .refused _ => none

/-- The reset block of R4. -/
abbrev r0 : State := State.reset

/-! ### WellFormed refuses an ill-formed term for each of its checks (R50, R54) -/

theorem test_wf_idle_data :
    (Instr.rxIdleData 0x7E).wellFormed = false ∧ (Instr.rxIdleData 0x7D).wellFormed = false := by
  decide
theorem test_wf_frameStart_data :
    (Instr.rxFrameStartData 0x7E).wellFormed = false ∧
    (Instr.rxFrameStartData 0x7D).wellFormed = false := by decide
theorem test_wf_inFrame_data :
    (Instr.rxInFrameData 0x7E).wellFormed = false ∧
    (Instr.rxInFrameData 0x7D).wellFormed = false := by decide
theorem test_wf_inFrameEscape_data :
    (Instr.rxInFrameEscapeData 0x7E).wellFormed = false ∧
    (Instr.rxInFrameEscapeData 0x7D).wellFormed = false := by decide
theorem test_wf_header_acfc : (Instr.headerAcfcPfc 0x7F []).wellFormed = false := by decide
theorem test_wf_accepts :
    (Instr.rxIdleData 0x7F).wellFormed = true ∧ (Instr.headerAcfcPfc 0x7E []).wellFormed = true := by
  decide

/-! ### Decoding words written out from R62 (numbers), R50 (line bytes), R52, R54, R56, R58, R59 -/

theorem test_decode_fcsInit : decode .op [0x00] = .ok .fcsInit := rfl
theorem test_decode_fcsUpdate :
    decode .op [0x01, 0x12, 0x34, 0x56] = .ok (.fcsUpdate 0x1234 0x56) := rfl
theorem test_decode_fcsRun :
    decode .op [0x02, 0xFF, 0xFE, 0x01, 0x02] = .ok (.fcsRun 0xFFFE [0x01, 0x02]) := rfl
theorem test_decode_fcsFinal : decode .op [0x03, 0xD3, 0xB6] = .ok (.fcsFinal 0xD3B6) := rfl
theorem test_decode_fcsCheck : decode .op [0x04, 0xF0, 0xB8] = .ok (.fcsCheck 0xF0B8) := rfl
theorem test_decode_escNeeds : decode .op [0x10, 0x7D] = .ok (.escNeeds 0x7D) := rfl
theorem test_decode_escEnc : decode .op [0x11, 0x7E] = .ok (.escEnc 0x7E) := rfl
theorem test_decode_escStuff : decode .op [0x12, 0x7E, 0x00] = .ok (.escStuff [0x7E, 0x00]) := rfl
theorem test_decode_pppEncode :
    decode .op [0x13, 0xC0, 0x21, 0xAA] = .ok (.pppEncode 0xC021 [0xAA]) := rfl
theorem test_decode_txWrite :
    decode .op [0x14, 0x80, 0x21, 0xAA] = .ok (.txWrite 0x8021 [0xAA]) := rfl
theorem test_decode_rxPush : decode .op [0x20, 0x7E] = .ok (.rxPush 0x7E) := rfl
theorem test_decode_pppDecode : decode .op [0x21, 0xFF] = .ok (.pppDecode [0xFF]) := rfl
theorem test_decode_escUnstuff :
    decode .op [0x22, 0x7D, 0x5E] = .ok (.escUnstuff [0x7D, 0x5E]) := rfl
theorem test_decode_optNext : decode .op [0x30, 0x07, 0x02] = .ok (.optNext [0x07, 0x02]) := rfl
theorem test_decode_optParse : decode .op [0x31, 0x07, 0x02] = .ok (.optParse [0x07, 0x02]) := rfl
/-- Capacity 200 is `C8 01` in the operand bytes of log 3. -/
theorem test_decode_optPut :
    decode .op [0x32, 0xC8, 0x01, 0x02, 0xAA, 0xBB, 0x07, 0xCC] =
      .ok (.optPut [0xAA, 0xBB] 200 0x07 [0xCC]) := rfl
theorem test_decode_optEmit :
    decode .op [0x33, 0x40, 0x01, 0x02, 0x05, 0xDC, 0x07, 0x00] =
      .ok (.optEmit 64 [{ type := 0x01, value := [0x05, 0xDC] }, { type := 0x07, value := [] }]) := rfl
theorem test_decode_unassigned :
    decode .op [0x05] = .error (.unassignedOp 0x05) ∧ decode .op [0x34] = .error (.unassignedOp 0x34) :=
  ⟨rfl, rfl⟩
theorem test_decode_idle :
    decode (.wireByte .idle) [0x7E] = .ok .rxIdleFlag ∧
    decode (.wireByte .idle) [0x7D] = .ok .rxIdleEsc ∧
    decode (.wireByte .idle) [0x00] = .ok (.rxIdleData 0x00) := ⟨rfl, rfl, rfl⟩
theorem test_decode_frameStart :
    decode (.wireByte .frameStart) [0x7E] = .ok .rxFrameStartFlag ∧
    decode (.wireByte .frameStart) [0x7D] = .ok .rxFrameStartEsc ∧
    decode (.wireByte .frameStart) [0xFF] = .ok (.rxFrameStartData 0xFF) := ⟨rfl, rfl, rfl⟩
theorem test_decode_inFrame :
    decode (.wireByte .inFrame) [0x7E] = .ok .rxInFrameFlag ∧
    decode (.wireByte .inFrame) [0x7D] = .ok .rxInFrameEsc ∧
    decode (.wireByte .inFrame) [0x7C] = .ok (.rxInFrameData 0x7C) := ⟨rfl, rfl, rfl⟩
theorem test_decode_inFrameEscape :
    decode (.wireByte .inFrameEscape) [0x7E] = .ok .rxInFrameEscapeFlag ∧
    decode (.wireByte .inFrameEscape) [0x7D] = .ok .rxInFrameEscapeEsc ∧
    decode (.wireByte .inFrameEscape) [0x7F] = .ok (.rxInFrameEscapeData 0x7F) := ⟨rfl, rfl, rfl⟩
theorem test_decode_escapePair : decode .wirePair [0x7D, 0x23] = .ok (.escapePair 0x23) := rfl
/-- `FF 03 C0 21`: `ppppppp0` is `C0`. -/
theorem test_decode_headerFull :
    decode .header [0xFF, 0x03, 0xC0, 0x21, 0x01] = .ok (.headerFull 0x60 0x21 [0x01]) := rfl
/-- `FF 03 FF AA`: after the Address a byte `FF` is an odd Protocol byte. -/
theorem test_decode_headerPfc :
    decode .header [0xFF, 0x03, 0xFF, 0xAA] = .ok (.headerPfc 0x7F [0xAA]) := rfl
theorem test_decode_headerAcfcPfc :
    decode .header [0x21, 0x45] = .ok (.headerAcfcPfc 0x10 [0x45]) := rfl
/-- A first byte `FF` is always the Address (R54); an even first byte is no header (D10). -/
theorem test_decode_header_refused :
    decode .header [0xFF, 0x13, 0xC0, 0x21] = .error .noHeaderForm ∧
    decode .header [0xC0, 0x21, 0x01] = .error .noHeaderForm := ⟨rfl, rfl⟩
theorem test_decode_fcsField : decode .trailer [0x49, 0x2C] = .ok (.fcsField 0x49 0x2C) := rfl
theorem test_decode_optionTlv :
    decode .tlv [0x05, 0x02, 0x07] = .ok (.optionTlv 0x05 0x02 [0x07]) := rfl
theorem test_decode_controlPacket :
    decode .packet [0x01, 0x07, 0x01, 0x04, 0xAA] =
      .ok (.controlPacket 0x01 0x07 0x0104 [0xAA]) := rfl

/-- Words numbered as the opcode table numbers them (log 5). -/
theorem test_tableWord :
    decodeTableWord 8 0x14 = some (.txWrite 0 []) ∧ decodeTableWord 8 0x7E = some .rxIdleFlag ∧
    decodeTableWord 16 0x7D5E = some (.escapePair 0x5E) ∧
    decodeTableWord 16 0x492C = some (.fcsField 0x49 0x2C) ∧
    decodeTableWord 32 0xFF03C021 = some (.headerFull 0x60 0x21 []) ∧
    decodeTableWord 24 0xFF0321 = some (.headerPfc 0x10 []) ∧
    decodeTableWord 32 0x01070004 = some (.controlPacket 0x01 0x07 0x0004 []) := by decide

theorem test_withFetchWord_runs :
    resultsOf (step (r0.withFetchWord 8 0x00)) = some [.acc 0xFFFF] ∧
    readerOf 0 (step (r0.withFetchWord 8 0x7E)) = some ⟨.frameStart, 0, 0, []⟩ ∧
    refusalOf (step (r0.withFetchWord 8 0xFF)) = none := by decide

/-! ### One step of each instruction; expected values from spec/95_test_vectors.md -/

theorem test_exec_fcsInit : resultsOf (exec .fcsInit r0) = some [.acc 0xFFFF] := by decide
/-- F8 and F6. -/
theorem test_exec_fcsUpdate :
    resultsOf (exec (.fcsUpdate 0x1234 0x56) r0) = some [.acc 0x4006] ∧
    resultsOf (exec (.fcsUpdate 0x0000 0xFF) r0) = some [.acc 0x0F78] := by decide +kernel
/-- F9 and F12. -/
theorem test_exec_fcsRun :
    resultsOf (exec (.fcsRun 0xFFFF [0xFF, 0x03, 0xC0, 0x21]) r0) = some [.acc 0xD3B6] ∧
    resultsOf (exec (.fcsRun 0xFFFF [0xFF, 0x03, 0xC0, 0x21, 0x49, 0x2D]) r0) =
      some [.acc 0xE131] := by decide +kernel
/-- F10. -/
theorem test_exec_fcsFinal :
    resultsOf (exec (.fcsFinal 0xD3B6) r0) = some [.fcs 0x2C49 0x49 0x2C] := by decide
/-- F11 and F12. -/
theorem test_exec_fcsCheck :
    resultsOf (exec (.fcsCheck 0xF0B8) r0) = some [.truth true] ∧
    resultsOf (exec (.fcsCheck 0xE131) r0) = some [.truth false] := by decide
/-- E1 and E2. -/
theorem test_exec_escNeeds :
    resultsOf (exec (.escNeeds 0x1F) r0) = some [.truth true] ∧
    resultsOf (exec (.escNeeds 0x20) r0) = some [.truth false] := by decide
/-- E3. -/
theorem test_exec_escEnc :
    resultsOf (exec (.escEnc 0x7E) r0) = some [.bytes [0x7D, 0x5E]] ∧
    resultsOf (exec (.escEnc 0x20) r0) = some [.bytes [0x20]] := by decide
/-- E4. -/
theorem test_exec_escStuff :
    resultsOf (exec (.escStuff [0x7E, 0x7D, 0x20, 0x1F, 0x00]) r0) =
      some [.bytes [0x7D, 0x5E, 0x7D, 0x5D, 0x20, 0x7D, 0x3F, 0x7D, 0x20]] := by decide
theorem test_exec_pppEncode :
    resultsOf (exec (.pppEncode 0xC021 [0xAA]) r0) =
      some [.bytes [0xFF, 0x03, 0xC0, 0x21, 0xAA]] := by decide
/-- V1 and V12. -/
theorem test_exec_txWrite :
    resultsOf (exec (.txWrite 0xC021 []) r0) =
      some [.bytes [0x7E, 0xFF, 0x7D, 0x23, 0xC0, 0x21, 0x49, 0x2C, 0x7E]] ∧
    resultsOf (exec (.txWrite 0x0021 [0xCB, 0xFE]) r0) =
      some [.bytes [0x7E, 0xFF, 0x7D, 0x23, 0x7D, 0x20, 0x21, 0xCB, 0xFE, 0x7D, 0x5D, 0x7D, 0x5E,
        0x7E]] := by decide +kernel
/-- V29, index 3 and V15's closing flag. -/
theorem test_exec_rxPush :
    readerOf 2 (exec (.rxPush 0x7E) (block 8 .inFrameEscape [0xFF])) =
      some ⟨.inFrame, 2, 0, [some 0xFF, some 0x5E]⟩ ∧
    resultsOf (exec (.rxPush 0x7E) (block 8 .inFrame [0x21, 0x45, 0x05, 0x20])) =
      some [.event (.frame { address := 0xFF, control := 0x03, protocol := 0x0021, body := [0x45] })] := by
  decide +kernel
/-- The table under R136 in section 5 of the vectors. -/
theorem test_exec_pppDecode :
    resultsOf (exec (.pppDecode [0xFF, 0x03, 0xFF, 0xAA]) r0) =
      some [.frame { address := 0xFF, control := 0x03, protocol := 0x00FF, body := [0xAA] }] ∧
    resultsOf (exec (.pppDecode [0x00, 0x21, 0x45, 0x00]) r0) = some [.reject] := by decide
/-- E5, and the precondition of R137. -/
theorem test_exec_escUnstuff :
    resultsOf (exec (.escUnstuff [0x7D, 0x7E]) r0) = some [.bytes [0x5E]] ∧
    refusalOf (exec (.escUnstuff [0x41, 0x7D]) r0) = some .unstuffPrecondition := by decide
/-- O8 and O7. -/
theorem test_exec_optNext :
    resultsOf (exec (.optNext [0x07, 0x02, 0x08, 0x02]) r0) =
      some [.optItem 0x07 [] [0x08, 0x02]] ∧
    resultsOf (exec (.optNext [0x05, 0x06, 0x12, 0x34]) r0) = some [.malformed] := by decide
/-- O13, shortened, and O15. -/
theorem test_exec_optParse :
    resultsOf (exec (.optParse [0x01, 0x04, 0x05, 0xDC, 0x07, 0x02]) r0) =
      some [.optList [{ type := 0x01, value := [0x05, 0xDC] }, { type := 0x07, value := [] }]] ∧
    resultsOf (exec (.optParse [0x01, 0x04, 0x05, 0xDC, 0x07]) r0) = some [.malformed] := by decide
/-- O24, and one byte less of capacity. -/
theorem test_exec_optPut :
    resultsOf (exec (.optPut [0x05, 0x06, 0x12, 0x34, 0x56, 0x78] 8 0x07 []) r0) =
      some [.optBuffer [0x05, 0x06, 0x12, 0x34, 0x56, 0x78, 0x07, 0x02]] ∧
    resultsOf (exec (.optPut [0x05, 0x06, 0x12, 0x34, 0x56, 0x78] 7 0x07 []) r0) =
      some [.overflow] := by decide
/-- O22. -/
theorem test_exec_optEmit :
    resultsOf (exec (.optEmit 4 [{ type := 0x07, value := [] }, { type := 0x08, value := [] }]) r0) =
      some [.optEmitted [0x07, 0x02, 0x08, 0x02] 4] ∧
    resultsOf (exec (.optEmit 3 [{ type := 0x07, value := [] }, { type := 0x08, value := [] }]) r0) =
      some [.overflow] := by decide

/-- V30, indices 10 to 12: `Idle` does not track escapes. -/
theorem test_exec_idle_rows :
    readerOf 0 (exec .rxIdleFlag (block 8 .idle [])) = some ⟨.frameStart, 0, 0, []⟩ ∧
    readerOf 0 (exec .rxIdleEsc (block 8 .idle [])) = some ⟨.idle, 0, 0, []⟩ ∧
    readerOf 1 (exec (.rxIdleData 0x39) (block 8 .idle [])) = some ⟨.idle, 0, 0, [none]⟩ := by decide
theorem test_exec_frameStart_rows :
    readerOf 0 (exec .rxFrameStartFlag (block 8 .frameStart [])) = some ⟨.frameStart, 0, 0, []⟩ ∧
    readerOf 1 (exec .rxFrameStartEsc (block 8 .frameStart [])) =
      some ⟨.inFrameEscape, 0, 0, [none]⟩ ∧
    readerOf 1 (exec (.rxFrameStartData 0x30) (block 8 .frameStart [])) =
      some ⟨.inFrame, 1, 0, [some 0x30]⟩ := by decide
/-- V18: a bad FCS is counted; V30, index 9: the ninth byte does not fit. -/
theorem test_exec_inFrame_rows :
    readerOf 0 (exec .rxInFrameFlag (block 8 .inFrame [0x01, 0x02, 0x03, 0x04])) =
      some ⟨.frameStart, 0, 1, []⟩ ∧
    readerOf 0 (exec .rxInFrameEsc (block 8 .inFrame [0xFF])) = some ⟨.inFrameEscape, 1, 0, []⟩ ∧
    readerOf 0 (exec (.rxInFrameData 0x38)
      (block 8 .inFrame [0x30, 0x31, 0x32, 0x33, 0x34, 0x35, 0x36, 0x37])) =
      some ⟨.idle, 0, 0, []⟩ := by decide +kernel
theorem test_exec_inFrameEscape_rows :
    readerOf 2 (exec .rxInFrameEscapeFlag (block 8 .inFrameEscape [0xFF])) =
      some ⟨.inFrame, 2, 0, [some 0xFF, some 0x5E]⟩ ∧
    readerOf 1 (exec .rxInFrameEscapeEsc (block 8 .inFrameEscape [])) =
      some ⟨.inFrame, 1, 0, [some 0x5D]⟩ ∧
    readerOf 1 (exec (.rxInFrameEscapeData 0x23) (block 8 .inFrameEscape [])) =
      some ⟨.inFrame, 1, 0, [some 0x03]⟩ := by decide
/-- A row met in another state is not the row R120 selects. -/
theorem test_exec_row_not_selected :
    refusalOf (exec .rxInFrameFlag (block 8 .idle [])) = some .rowNotSelected ∧
    refusalOf (exec (.rxInFrameData 0x7E) (block 8 .inFrame [])) = some .rowNotSelected := by decide

/-- V29, indices 5 and 6. -/
theorem test_exec_escapePair :
    readerOf 2 (exec (.escapePair 0x23) (block 8 .inFrame [0xFF])) =
      some ⟨.inFrame, 2, 0, [some 0xFF, some 0x03]⟩ ∧
    resultsOf (exec (.escapePair 0x23) (block 8 .inFrame [0xFF])) =
      some [.event .none, .event .none] := by decide
theorem test_exec_headers :
    resultsOf (exec (.headerFull 0x60 0x21 [0x01]) r0) =
      some [.frame { address := 0xFF, control := 0x03, protocol := 0xC021, body := [0x01] }] ∧
    resultsOf (exec (.headerPfc 0x10 []) r0) =
      some [.frame { address := 0xFF, control := 0x03, protocol := 0x0021, body := [] }] ∧
    resultsOf (exec (.headerAcfcPfc 0x10 [0x45]) r0) =
      some [.frame { address := 0xFF, control := 0x03, protocol := 0x0021, body := [0x45] }] := by
  decide
/-- F10, read back. -/
theorem test_exec_fcsField :
    resultsOf (exec (.fcsField 0x49 0x2C) r0) = some [.fcs 0x2C49 0x49 0x2C] := by decide
/-- O5 and O3. -/
theorem test_exec_optionTlv :
    resultsOf (exec (.optionTlv 0x05 0x02 []) r0) = some [.optItem 0x05 [] []] ∧
    resultsOf (exec (.optionTlv 0x05 0x01 []) r0) = some [.malformed] := by decide
/-- R59: `len` counts the four header bytes; the byte beyond it is no part of the body. -/
theorem test_exec_controlPacket :
    resultsOf (exec (.controlPacket 0x01 0x07 0x0006 [0xAA, 0xBB, 0xCC]) r0) =
      some [.packet 0x01 0x07 0x0006 (some [0xAA, 0xBB]) [0xCC]] ∧
    resultsOf (exec (.controlPacket 0x01 0x07 0x0003 [0xAA]) r0) =
      some [.packet 0x01 0x07 0x0003 none [0xAA]] ∧
    resultsOf (exec (.controlPacket 0x01 0x07 0x0006 [0xAA]) r0) =
      some [.packet 0x01 0x07 0x0006 none [0xAA]] := by decide

/-! ### Witnesses: what meets the hypotheses of each obligation -/

/-- A state in the middle of a frame meets the invariant. -/
theorem block_inv : (block 4 .inFrame [0xFF]).Inv :=
  ⟨by decide, rfl, by decide, by decide, by decide, by decide, by decide, by decide, by decide⟩

theorem witness_ResetMeetsInvariant : 4 ≤ ({ rxCap := 4 } : Config).rxCap := by decide

theorem issuing_inv (p : List Issue) : (issuing (block 4 .inFrame [0xFF]) p).Inv :=
  ⟨block_inv.cap, rfl, block_inv.memForm, block_inv.memInside, block_inv.memWritten,
    block_inv.lenCap, block_inv.idleLen, block_inv.frameStartLen, block_inv.inFrameLen⟩

theorem witness_StepKeepsInvariant :
    (issuing (block 4 .inFrame [0xFF]) [{ channel := .line, bytes := [0x7D] }]).Inv ∧
    ∃ t, step (issuing (block 4 .inFrame [0xFF]) [{ channel := .line, bytes := [0x7D] }]) = .next t :=
  ⟨issuing_inv _, _, rfl⟩

theorem witness_StepRunsDecodedInstruction :
    ((issuing r0 [{ channel := .line, bytes := [0x7E] }]).pending =
        [{ channel := .line, bytes := [0x7E] }] ∧
      decode (channelFormat RxState.idle .line) [0x7E] = .ok .rxIdleFlag) ∧
    ((issuing r0 [{ channel := .op, bytes := [] }]).pending = [{ channel := .op, bytes := [] }] ∧
      decode (channelFormat RxState.idle .op) [] = .error .nothing) ∧
    r0.pending = [] := ⟨⟨rfl, rfl⟩, ⟨rfl, rfl⟩, rfl⟩

theorem witness_DecodeInvertsEncode :
    (Instr.rxInFrameData 0x7F).WellFormed ∧ (Instr.headerAcfcPfc 0x7E [0x00]).WellFormed := by decide

theorem witness_DecodedBytesAreTheEncoding :
    decode .header [0xFF, 0x03, 0xFF] = .ok (.headerPfc 0x7F []) := rfl

theorem witness_UnassignedOperationsAreRefused :
    (0xFF : Byte).toNat ∉ [0x00, 0x01, 0x02, 0x03, 0x04, 0x10, 0x11, 0x12, 0x13, 0x14, 0x20, 0x21,
      0x22, 0x30, 0x31, 0x32, 0x33] ∧
    (issuing r0 [{ channel := .op, bytes := [0xFF] }]).pending =
      [{ channel := .op, bytes := [0xFF] }] := by decide

/-- F10 and F13. -/
theorem witness_FcsResidueOfEveryContent :
    fcsOf [] = (0x0000, 0x00, 0x00) ∧ fcsOf [0xFF, 0x03, 0xC0, 0x21] = (0x2C49, 0x49, 0x2C) := by
  decide +kernel

theorem witness_SingleByteErrorsAreDetected :
    (0x01 : Byte) ≠ 0 ∧ fcsRun 0xFFFF ([0xFF, 0x03] ++ 0xC0 :: [0x21, 0x49, 0x2C]) = 0xF0B8 := by
  decide +kernel

theorem witness_EscNeedsPredicate : r0.txAccm = 0xFFFFFFFF := rfl

theorem witness_EscEncResult :
    exec (.escNeeds 0x1F) r0 = .next (r0.emit (.truth true)) ∧
    exec (.escNeeds 0x20) r0 = .next (r0.emit (.truth false)) := ⟨rfl, rfl⟩

theorem witness_TxWriteShape :
    txWrite r0.txAccm 0xC021 [] = [0x7E, 0xFF] ++ 0x7D :: [0x23, 0xC0, 0x21, 0x49, 0x2C, 0x7E] ∧
    r0.txAccm = 0xFFFFFFFF ∧ (0x23 : Byte) ∈ txWrite r0.txAccm 0xC021 [] := by decide +kernel

theorem witness_TxWriteLengthBounds : r0.txAccm = 0xFFFFFFFF := rfl

theorem witness_UnstuffInvertsStuff :
    exec (.escStuff [0x7E, 0x20]) r0 = .next (r0.emit (.bytes [0x7D, 0x5E, 0x20])) := rfl

theorem witness_PushRunsTheSelectedRow :
    Instr.rxIdleFlag.isTransition = true ∧ (Instr.rxInFrameData 0x7E).isTransition = true :=
  ⟨rfl, rfl⟩

theorem witness_IdleRows :
    r0.rxState = .idle ∧ (0x7F : Byte) ≠ 0x7E ∧ (0x7F : Byte) ≠ 0x7D ∧
    Instr.rxPush 0x7F ∈ [Instr.rxIdleData 0x7F, .rxPush 0x7F] := by decide

theorem witness_FrameStartRows :
    (block 4 .frameStart []).rxState = .frameStart ∧ (0x7C : Byte) ≠ 0x7E ∧ (0x7C : Byte) ≠ 0x7D ∧
    (block 4 .frameStart []).rxLen < (block 4 .frameStart []).cfg.rxCap ∧
    (block 0 .frameStart []).rxLen = (block 0 .frameStart []).cfg.rxCap := by decide

/-- One byte short of full, and full. -/
theorem witness_InFrameStoringRows :
    (block 4 .inFrame [1, 2, 3]).rxState = .inFrame ∧
    (block 4 .inFrame [1, 2, 3]).rxLen < (block 4 .inFrame [1, 2, 3]).cfg.rxCap ∧
    (block 4 .inFrame [1, 2, 3, 4]).rxLen = (block 4 .inFrame [1, 2, 3, 4]).cfg.rxCap := by decide

theorem witness_InFrameEscapeRows :
    (block 4 .inFrameEscape [1, 2, 3]).rxState = .inFrameEscape ∧
    (block 4 .inFrameEscape [1, 2, 3]).rxLen < (block 4 .inFrameEscape [1, 2, 3]).cfg.rxCap ∧
    (block 4 .inFrameEscape [1, 2, 3, 4]).rxLen =
      (block 4 .inFrameEscape [1, 2, 3, 4]).cfg.rxCap := by decide

/-- Three bytes, and four bytes of each kind: a bad FCS (V18), a header that is none (V17), the
shortest deliverable content (V15). -/
theorem witness_InFrameFlagCompletes :
    ((block 4 .inFrame [1, 2, 3]).rxLen < 4 ∧
      (block 4 .inFrame [1, 2, 3]).rxLen ≤ (block 4 .inFrame [1, 2, 3]).cfg.rxCap) ∧
    (4 ≤ (block 4 .inFrame [1, 2, 3, 4]).rxLen ∧
      fcsRun 0xFFFF (block 4 .inFrame [1, 2, 3, 4]).content ≠ 0xF0B8) ∧
    (fcsRun 0xFFFF (block 4 .inFrame [0xFF, 0x03, 0x1C, 0xC2]).content = 0xF0B8 ∧
      pppDecode ((block 4 .inFrame [0xFF, 0x03, 0x1C, 0xC2]).content.take 2) = none) ∧
    (fcsRun 0xFFFF (block 4 .inFrame [0x21, 0x45, 0x05, 0x20]).content = 0xF0B8 ∧
      pppDecode ((block 4 .inFrame [0x21, 0x45, 0x05, 0x20]).content.take 2) =
        some { address := 0xFF, control := 0x03, protocol := 0x0021, body := [0x45] }) := by
  decide +kernel

/-- A delivered frame, an overflow by a flag after an escape, a counted frame. -/
theorem witness_PushEventsAndCounter :
    resultsOf (exec (.rxPush 0x7E) (block 4 .inFrame [0x21, 0x45, 0x05, 0x20])) =
      some [.event (.frame { address := 0xFF, control := 0x03, protocol := 0x0021, body := [0x45] })] ∧
    resultsOf (exec (.rxPush 0x7E) (block 4 .inFrameEscape [1, 2, 3, 4])) =
      some [.event .frameTooLong] ∧
    readerOf 0 (exec (.rxPush 0x7E) (block 4 .inFrame [1, 2, 3, 4])) =
      some ⟨.frameStart, 0, 1, []⟩ := by decide +kernel

theorem witness_ReaderInstructionsFrame :
    (Instr.rxInFrameData 0x41).isTransition = true ∧
    (∃ t, exec (.rxInFrameData 0x41) (block 4 .inFrame [1]) = .next t) ∧
    ∃ t, exec (.rxPush 0x7D) (block 4 .inFrame [1]) = .next t ∧
      t.results = [] ++ [.event .none] ∧ (Event.none ≠ .frameTooLong) ∧
      ¬ ((block 4 .inFrame [1]).rxState = .inFrame ∧ Instr.rxPush 0x7D = .rxPush 0x7E) ∧
      t.rxLen ≠ (block 4 .inFrame [1]).rxLen + 1 :=
  ⟨rfl, ⟨_, rfl⟩, _, rfl, rfl, by decide, by decide, by decide⟩

theorem witness_EscapePairStoresTheByte :
    (∃ u, exec (.rxPush 0x7D) r0 = .next u) ∧
    (block 4 .frameStart []).rxState = .frameStart ∧
    (block 4 .inFrame [1, 2, 3]).rxLen < (block 4 .inFrame [1, 2, 3]).cfg.rxCap ∧
    (block 4 .inFrame [1, 2, 3, 4]).rxLen = (block 4 .inFrame [1, 2, 3, 4]).cfg.rxCap ∧
    r0.rxState = .idle := ⟨⟨_, rfl⟩, rfl, by decide, by decide, rfl⟩

theorem witness_ReaderFaultsOnlyOutsideTheBuffer :
    exec (.rxPush 0x41) (block 0 .inFrame [1]) = .fault .rxBufOutOfRange := rfl

theorem witness_PppDecodeForms :
    (0x02 : Byte) ≠ 0x03 ∧ (0xFF : Byte).getLsbD 0 = true ∧ (0xFE : Byte).getLsbD 0 = false ∧
    (0x01 : Byte) ≠ 0xFF ∧ (0x01 : Byte).getLsbD 0 = true ∧ (0x00 : Byte).getLsbD 0 = false := by
  decide

theorem witness_HeaderRowsAgreeWithPppDecode : (0x7E : BitVec 7) ≠ 0x7F := by decide

theorem witness_PppDecodeIsTheHeaderRows :
    decode .header [0x21] = .ok (.headerAcfcPfc 0x10 []) ∧
    decode .header [0xFF, 0x03, 0xC0] = .error .noHeaderForm := ⟨rfl, rfl⟩

theorem witness_UnstuffResultAndRefusal :
    Unstuffs [0x7D, 0x7E, 0x41] [0x5E, 0x41] ∧ ∀ out, ¬ Unstuffs [0x7D] out :=
  ⟨.pair 0x7E (.plain 0x41 (by decide) (by decide) .nil), fun _ h => by
    cases h with
    | plain b he hf h => exact he rfl⟩

theorem witness_ReaderComputesUnstuff :
    (block 4 .idle []).rxState = .idle ∧ (block 4 .frameStart []).rxState = .frameStart ∧
    (block 4 .idle []).rxLen = 0 ∧ Unstuffs [1, 2, 3, 4] [1, 2, 3, 4] ∧
    ([1, 2, 3, 4] : List Byte).length ≤ (block 4 .idle []).cfg.rxCap :=
  ⟨rfl, rfl, rfl, .plain 1 (by decide) (by decide) (.plain 2 (by decide) (by decide)
    (.plain 3 (by decide) (by decide) (.plain 4 (by decide) (by decide) .nil))), by decide⟩

/-- V31's frame exactly fills a buffer of 8 bytes. -/
theorem witness_WriterToReaderRoundTrip :
    (block 8 .idle []).rxState = .idle ∧ (block 8 .frameStart []).rxState = .frameStart ∧
    (block 8 .idle []).rxLen = 0 ∧
    ([0x45, 0x46] : List Byte).length + 6 ≤ (block 8 .idle []).cfg.rxCap ∧
    (0x0021 : Half).getLsbD 8 = false ∧ (0x0121 : Half).getLsbD 8 = true := by decide

theorem witness_FrameAfterFragmentIsDelivered :
    (block 8 .inFrame [0x41]).rxState = .inFrame ∧
    (block 8 .inFrame [0x41]).rxLen ≤ (block 8 .inFrame [0x41]).cfg.rxCap ∧
    ([0x45, 0x46] : List Byte).length + 6 ≤ (block 8 .inFrame [0x41]).cfg.rxCap ∧
    (0xC021 : Half).getLsbD 8 = false := by decide

theorem witness_GarbageBeforeFlagLeavesNoTrace :
    r0.rxState = .idle ∧ (0x7E : Byte) ∉ ([0x41, 0x7D, 0x00, 0x42] : List Byte) := by decide

/-- Plain and escaped bytes; the byte too many is a plain one, and a pair. -/
theorem witness_OverlongFrameIsReportedOnce :
    (block 4 .frameStart []).rxState = .frameStart ∧ (block 4 .frameStart []).rxLen = 0 ∧
    Unstuffs [0xFF, 0x7D, 0x23, 0x7D, 0x5E, 0x30] [0xFF, 0x03, 0x7E, 0x30] ∧
    ([0xFF, 0x03, 0x7E, 0x30] : List Byte).length = (block 4 .frameStart []).cfg.rxCap ∧
    Unstuffs [0x31] [0x31] ∧ Unstuffs [0x7D, 0x5D] [0x7D] ∧
    (0x7E : Byte) ∉ ([6, 0x7D] : List Byte) ∧
    (block 5 .idle []).rxState = .idle ∧ (block 5 .idle []).rxLen = 0 ∧
    (block 5 .idle []).cfg.rxCap < ([] : List Byte).length + 6 :=
  ⟨rfl, rfl,
    .plain _ (by decide) (by decide) (.pair 0x23 (.pair 0x5E (.plain _ (by decide) (by decide) .nil))),
    rfl, .plain _ (by decide) (by decide) .nil, .pair 0x5D .nil, by decide, rfl, rfl, by decide⟩

theorem witness_FeedStopsAtFirstEvent :
    (∃ t, rxFeed [0x7E] (block 4 .idle []) = .next (t, 1, .none)) ∧
    (∃ t, rxFeed [5, 6] (block 4 .inFrame [1, 2, 3, 4]) = .next (t, 1, .frameTooLong)) ∧
    ∃ u, rxFeedAll [6] ((block 4 .inFrame [1, 2, 3, 4]).raise .frameTooLong) = .next (u, []) :=
  ⟨⟨_, rfl⟩, ⟨_, rfl⟩, _, rfl⟩

theorem witness_FeedAllRunsAsSteps :
    ∃ t, rxFeedAll [5, 6] (block 4 .inFrame [1, 2, 3, 4]) = .next (t, [.frameTooLong]) := ⟨_, rfl⟩

theorem witness_OptNextResult :
    (0x01 : Byte).toNat < 2 ∧ ([] : List Byte).length + 2 < (0x03 : Byte).toNat ∧
    (0x02 : Byte).toNat = 2 + ([] : List Byte).length ∧
    (0xFF : Byte).toNat = 2 + (List.replicate 253 (0xAB : Byte)).length := by decide +kernel

theorem witness_OptionTlvIsOptNext :
    (0x01 : Byte).toNat < 2 ∧ ([] : List Byte).length + 2 < (0x03 : Byte).toNat ∧
    2 ≤ (0x02 : Byte).toNat ∧ (0x02 : Byte).toNat ≤ ([] : List Byte).length + 2 := by decide

theorem valuesFit_of {l : List TlvOption} (h : valuesFit l = true) : ValuesFit l :=
  (valuesFit_iff l).1 h

/-- An option with the longest value, and a list of one byte, which no options make up. -/
theorem witness_OptParseResult :
    ValuesFit [{ type := 9, value := List.replicate 253 0xAB }] ∧
    ∀ l, ValuesFit l → optionLayout l ≠ [0x05] := by
  refine ⟨valuesFit_of (by decide +kernel), fun l _ h => ?_⟩
  cases l with
  | nil => cases h
  | cons o os => simp [optionLayout] at h

theorem witness_OptParseLoopsOptNext :
    exec (.optNext []) r0 = .next (r0.emit .optEnd) ∧
    exec (.optNext [5]) r0 = .next (r0.emit .malformed) ∧
    exec (.optNext [7, 2, 8, 2]) r0 = .next (r0.emit (.optItem 7 [] [8, 2])) ∧
    exec (.optParse [8, 2]) r0 = .next (r0.emit (.optList [{ type := 8, value := [] }])) ∧
    exec (.optNext [7, 2, 8]) r0 = .next (r0.emit (.optItem 7 [] [8])) ∧
    exec (.optParse [8]) r0 = .next (r0.emit .malformed) := ⟨rfl, rfl, rfl, rfl, rfl, rfl⟩

/-- O23's largest value exactly fitting, one byte of capacity less, a value one byte longer, a buffer
over its capacity. -/
theorem witness_OptPutResult :
    ((List.replicate 253 (0xAB : Byte)).length ≤ 253 ∧
      ([] : List Byte).length + (2 + (List.replicate 253 (0xAB : Byte)).length) ≤ 255) ∧
    (([] : List Byte).length ≤ 254 ∧
      254 < ([] : List Byte).length + (2 + (List.replicate 253 (0xAB : Byte)).length)) ∧
    253 < (List.replicate 254 (0xAB : Byte)).length ∧ 0 < ([1] : List Byte).length := by
  decide +kernel

theorem witness_OptEmitResult :
    ValuesFit [{ type := 7, value := [] }] ∧
    (optionLayout [{ type := 7, value := [] }]).length ≤ 2 ∧
    1 < (optionLayout [{ type := 7, value := [] }]).length :=
  ⟨valuesFit_of (by decide), by decide, by decide⟩

theorem witness_OptEmitRefusesLongValues : 253 < (List.replicate 254 (0x00 : Byte)).length := by
  decide +kernel

theorem witness_OptEmitLoopsOptPut :
    exec (.optEmit 4 [{ type := 7, value := [] }]) r0 = .next (r0.emit (.optEmitted [7, 2] 2)) ∧
    exec (.optPut [7, 2] 4 8 []) r0 = .next (r0.emit (.optBuffer [7, 2, 8, 2])) ∧
    exec (.optEmit 3 [{ type := 7, value := [] }]) r0 = .next (r0.emit (.optEmitted [7, 2] 2)) ∧
    exec (.optPut [7, 2] 3 8 []) r0 = .next (r0.emit .overflow) ∧
    exec (.optEmit 1 [{ type := 7, value := [] }]) r0 = .next (r0.emit .overflow) ∧
    ([] : List Byte).length ≤ 253 := ⟨rfl, rfl, rfl, rfl, rfl, by decide⟩

theorem witness_OptionCodecRoundTrip :
    exec (.optEmit 2 [{ type := 7, value := [] }]) r0 = .next (r0.emit (.optEmitted [7, 2] 2)) ∧
    exec (.optParse [7, 2]) r0 = .next (r0.emit (.optList [{ type := 7, value := [] }])) :=
  ⟨rfl, rfl⟩

/-- Each clause at the ends of its range: an empty body, the longest, no room for the header, one byte
too few. -/
theorem witness_ControlPacketEndsAfterLen :
    (0x0004 : Half).toNat = 4 + ([] : List Byte).length ∧
    (0xFFFF : Half).toNat = 4 + (List.replicate 65531 (0xAA : Byte)).length ∧
    (0x0003 : Half).toNat < 4 ∧ ([0xAA] : List Byte).length + 4 < (0x0006 : Half).toNat ∧
    (0x0104 : Half) = BitVec.ofNat 16 ((0x01 : Byte).toNat * 256 + (0x04 : Byte).toNat) := by
  rw [List.length_replicate]; decide

theorem witness_PureInstructionsDependOnOperandsAlone :
    (Instr.escNeeds 0x1F).isPure = true ∧ r0.txAccm = (block 4 .inFrame [1]).txAccm := ⟨rfl, rfl⟩

theorem witness_EveryInstructionKeepsConstantsAndAppendsResults :
    ∃ t, exec (.escapePair 0x23) (block 4 .inFrame [1]) = .next t := ⟨_, rfl⟩

/-- One stale byte at index 1, and none, behind a frame of one byte. -/
theorem witness_StepIgnoresStaleBytes :
    SameButStaleBytes (issuing (block 4 .inFrame [1]) [{ channel := .line, bytes := [0x7E] }])
      { issuing (block 4 .inFrame [1]) [{ channel := .line, bytes := [0x7E] }] with
        rxBuf := [(0, 1), (1, 9)] } ∧
    ∃ u, step (issuing (block 4 .inFrame [1]) [{ channel := .line, bytes := [0x7E] }]) = .next u :=
  ⟨⟨rfl, rfl, rfl, ⟨rfl, rfl, rfl⟩, rfl, fun a h => by
    obtain rfl : a = 0 := Nat.lt_one_iff.1 h
    rfl⟩, _, rfl⟩

theorem witness_InvariantStatesNeverFault : (issuing (block 4 .inFrame [0xFF]) []).Inv :=
  issuing_inv _

/-- Each kind of refusal a step has, the model's own among them. -/
theorem witness_StepsRefuseOnlyNonInstructionsAndRefusedOperands :
    refusalOf (step (issuing r0 [{ channel := .op, bytes := [0x05] }])) =
      some (.undecodable (.unassignedOp 0x05)) ∧
    refusalOf (step (issuing r0 [{ channel := .op, bytes := [0x20] }])) =
      some (.undecodable (.badOperands 0x20)) ∧
    refusalOf (step (issuing r0 [{ channel := .tlv, bytes := [0x05] }])) =
      some (.undecodable .notTlv) ∧
    refusalOf (step (issuing r0 [{ channel := .op, bytes := [0x22, 0x7D] }])) =
      some .unstuffPrecondition ∧
    refusalOf (step (issuing r0 [{ channel := .op, bytes := [0x32, 0x00, 0x01, 0xAA, 0x07] }])) =
      some .optBufferOverCap ∧
    refusalOf (exec (.optEmit 300 [{ type := 7, value := List.replicate 254 0 }]) r0) =
      some .optValueTooLong := by decide +kernel

end Sys2Proof.Tests
end

section
/-! PROOFS of the family 00_scope.md: how a step takes the host's next operation (R5, R6, R251), the
reader's only fault (R8, R36), and what a pure instruction answers (R7). -/

namespace Sys2Proof.Machine

/-! ### One step -/

theorem step_of_pending_nil {s : State} (hp : s.pending = []) : step s = .next s := by
  simp [step, hp]

theorem step_of_fetch_ok {s : State} {it : Issue} {rest : List Issue} {i : Instr}
    (hp : s.pending = it :: rest) (hf : fetch it s = .ok i) :
    step s = exec i { s with pending := rest } := by
  simp [step, hp, hf]

theorem step_of_fetch_error {s : State} {it : Issue} {rest : List Issue} {e : DecodeError}
    (hp : s.pending = it :: rest) (hf : fetch it s = .error e) :
    step s = .refused (.undecodable e) := by
  simp [step, hp, hf]

/-- Settles O4: `fetch` is the decoding the statement names, so each part is one case of `step`. -/
theorem stepRunsDecodedInstruction : Obligations.StepRunsDecodedInstruction :=
  ⟨fun _ _ _ _ hp hf => step_of_fetch_ok hp hf, fun _ _ _ _ hp hf => step_of_fetch_error hp hf,
    fun _ hp => step_of_pending_nil hp⟩

/-! ### The reader's fault -/

/-- A fault seen by the host is the fault of the push: handing out the event adds none. -/
theorem deliver_fault {o : Host.Outcome (State × Event) Fault Refusal} {f : Fault}
    (h : deliver o = .fault f) : o = .fault f := by
  cases o with
  | next p => cases h
  | fault g => injection h with h; rw [h]
  | refused r => cases h

/-- Out of `Idle` every transition only moves the reader, whatever `rx_len` is (R122 to R124). -/
theorem pushByte_idle_answers (b : Byte) {s : State} (h : s.rxState = .idle) :
    ∃ t e, pushByte b s = .next (t, e) := by
  rw [pushByte_eq, h]
  cases classify b <;> exact ⟨_, _, rfl⟩

theorem pushByte_fault {b : Byte} {s : State} {f : Fault} (h : pushByte b s = .fault f) :
    s.cfg.rxCap < s.rxLen ∧ s.rxState ≠ .idle := by
  constructor
  · by_contra hle
    obtain ⟨t, e, hn⟩ := pushByte_answers b (Nat.le_of_not_lt hle)
    rw [hn] at h
    cases h
  · intro hidle
    obtain ⟨t, e, hn⟩ := pushByte_idle_answers b hidle
    rw [hn] at h
    cases h

/-- Settles O33: a push answers when `rx_len` is within the buffer, and in `Idle` always. -/
theorem readerFaultsOnlyOutsideTheBuffer : Obligations.ReaderFaultsOnlyOutsideTheBuffer :=
  fun _ _ _ h => pushByte_fault (deliver_fault h)

/-! ### Pure instructions -/

/-- The two outcomes a pure operation has: it hands out a result, or it refuses. -/
def reply (o : Except Refusal Result) (s : State) : Host.Outcome State Fault Refusal :=
  match o with
  | .ok r => answer r s
  | .error q => .refused q

@[simp] theorem reply_ok (r : Result) (s : State) : reply (.ok r) s = .next (s.emit r) := rfl

@[simp] theorem reply_error (q : Refusal) (s : State) : reply (.error q) s = .refused q := rfl

/-- In every state whose transmit map is `m` the instruction gives the one reply. -/
def RepliesUnder (m : BitVec 32) (i : Instr) : Prop :=
  ∃ o, ∀ s : State, s.txAccm = m → exec i s = reply o s

theorem repliesUnder_escUnstuff (m : BitVec 32) (x : List Byte) :
    RepliesUnder m (.escUnstuff x) := by
  by_cases hok : unstuffOk x = true
  · exact ⟨.ok _, fun s _ => if_pos hok⟩
  · exact ⟨.error _, fun s _ => if_neg hok⟩

theorem repliesUnder_optParse (m : BitVec 32) (x : List Byte) : RepliesUnder m (.optParse x) := by
  cases hp : optParse x with
  | none => exact ⟨.ok .malformed, fun s _ => by simp [exec, execOptParse, hp, answer]⟩
  | some l => exact ⟨.ok (.optList l), fun s _ => by simp [exec, execOptParse, hp, answer]⟩

theorem repliesUnder_optPut (m : BitVec 32) (buf : List Byte) (cap : Nat) (t : Byte)
    (v : List Byte) : RepliesUnder m (.optPut buf cap t v) := by
  by_cases hv : Config.optMaxVal < v.length
  · exact ⟨.error _, fun s _ => if_pos hv⟩
  by_cases hb : cap < buf.length
  · exact ⟨.error _, fun s _ => (if_neg hv).trans (if_pos hb)⟩
  cases hp : optPut buf cap t v with
  | none => exact ⟨.ok .overflow, fun s _ => by simp [exec, execOptPut, hv, hb, hp, answer]⟩
  | some buf' => exact ⟨.ok (.optBuffer buf'), fun s _ => by
      simp [exec, execOptPut, hv, hb, hp, answer]⟩

theorem repliesUnder_optEmit (m : BitVec 32) (cap : Nat) (l : List TlvOption) :
    RepliesUnder m (.optEmit cap l) := by
  by_cases hv : valuesFit l = true
  · cases he : optEmit cap l with
    | none => exact ⟨.ok .overflow, fun s _ => by simp [exec, execOptEmit, hv, he, answer]⟩
    | some x => exact ⟨.ok (.optEmitted x x.length), fun s _ => by
        simp [exec, execOptEmit, hv, he, answer]⟩
  · exact ⟨.error _, fun s _ => if_neg hv⟩

theorem repliesUnder_headerAcfcPfc (m : BitVec 32) (p : BitVec 7) (body : List Byte) :
    RepliesUnder m (.headerAcfcPfc p body) := by
  by_cases hp : oddByte p = Config.addr
  · exact ⟨.error _, fun s _ => if_pos hp⟩
  · exact ⟨.ok _, fun s _ => if_neg hp⟩

/-- R7: of the state a pure instruction reads the transmit map alone, and only the escaping
operations of TXU read that. -/
theorem repliesUnder_of_isPure (m : BitVec 32) :
    (i : Instr) → i.isPure = true → RepliesUnder m i
  | .fcsInit, _ => ⟨.ok _, fun _ _ => rfl⟩
  | .fcsUpdate _ _, _ => ⟨.ok _, fun _ _ => rfl⟩
  | .fcsRun _ _, _ => ⟨.ok _, fun _ _ => rfl⟩
  | .fcsFinal _, _ => ⟨.ok _, fun _ _ => rfl⟩
  | .fcsCheck _, _ => ⟨.ok _, fun _ _ => rfl⟩
  | .escNeeds b, _ => ⟨.ok (.truth (Sys2Proof.escNeeds m b)), fun _ hm => hm ▸ rfl⟩
  | .escEnc b, _ => ⟨.ok (.bytes (escEnc m b)), fun _ hm => hm ▸ rfl⟩
  | .escStuff x, _ => ⟨.ok (.bytes (escStuff m x)), fun _ hm => hm ▸ rfl⟩
  | .pppEncode _ _, _ => ⟨.ok _, fun _ _ => rfl⟩
  | .txWrite p x, _ => ⟨.ok (.bytes (txWrite m p x)), fun _ hm => hm ▸ rfl⟩
  | .pppDecode _, _ => ⟨.ok _, fun _ _ => rfl⟩
  | .escUnstuff x, _ => repliesUnder_escUnstuff m x
  | .optNext _, _ => ⟨.ok _, fun _ _ => rfl⟩
  | .optParse x, _ => repliesUnder_optParse m x
  | .optPut buf cap t v, _ => repliesUnder_optPut m buf cap t v
  | .optEmit cap l, _ => repliesUnder_optEmit m cap l
  | .headerFull _ _ _, _ => ⟨.ok _, fun _ _ => rfl⟩
  | .headerPfc _ _, _ => ⟨.ok _, fun _ _ => rfl⟩
  | .headerAcfcPfc p body, _ => repliesUnder_headerAcfcPfc m p body
  | .fcsField _ _, _ => ⟨.ok _, fun _ _ => rfl⟩
  | .optionTlv _ _ _, _ => ⟨.ok _, fun _ _ => rfl⟩
  | .controlPacket _ _ _ _, _ => ⟨.ok _, fun _ _ => rfl⟩

/-- Settles O56: both states get the one reply of the instruction under their common map. -/
theorem pureInstructionsDependOnOperandsAlone :
    Obligations.PureInstructionsDependOnOperandsAlone := by
  intro i s t hpure hmap
  obtain ⟨o, ho⟩ := repliesUnder_of_isPure t.txAccm i hpure
  have hs : exec i s = reply o s := ho s hmap
  have ht : exec i t = reply o t := ho t rfl
  cases o with
  | ok r => exact .inl ⟨r, hs.trans (reply_ok r s), ht.trans (reply_ok r t)⟩
  | error q => exact .inr ⟨q, hs.trans (reply_error q s), ht.trans (reply_error q t)⟩

end Sys2Proof.Machine
end

section
/-! PROOFS of the family 10_state.md: the state after reset (R22), which row of the reader's table
runs (R120), what an instruction that answers has done, the frame of every instruction (R10, R15), the
invariant (R13), and that stale bytes of `rx_buf` reach nothing (R12, 93 U9). -/

namespace Sys2Proof.Machine

/-! ### The invariant with an empty buffer: after reset and after a frame -/

/-- With nothing stored and no frame begun the invariant asks for R4 and R15 alone. -/
theorem State.Inv.of_empty {s : State} (hcap : 4 ≤ s.cfg.rxCap) (haccm : s.txAccm = Config.txAccm)
    (hbuf : s.rxBuf = []) (hlen : s.rxLen = 0) (hst : s.rxState ≠ .inFrame) : s.Inv where
  cap := hcap
  accm := haccm
  memForm := by rw [hbuf]; rfl
  memInside := by simp [hbuf]
  memWritten := by simp [hlen]
  lenCap := by omega
  idleLen := fun _ => hlen
  frameStartLen := fun _ => hlen
  inFrameLen := fun h => absurd h hst

theorem State.resetWith_inv {cfg : Config} (h : 4 ≤ cfg.rxCap) : (State.resetWith cfg).Inv :=
  .of_empty h rfl rfl rfl (by simp [State.resetWith])

/-- Settles O1: the values `State.resetWith` names; nothing is listed in the buffer. -/
theorem resetLeavesTheSpecValues : Obligations.ResetLeavesTheSpecValues :=
  fun _ => ⟨rfl, rfl, rfl, rfl, fun _ => rfl⟩

/-- Settles O2: the buffer is empty after reset, whatever the build. -/
theorem resetMeetsInvariant : Obligations.ResetMeetsInvariant :=
  ⟨fun _ h => State.resetWith_inv h, rfl, rfl, rfl⟩

/-! ### The row that runs (R120) -/

@[simp] theorem onRow_true (o : Host.Outcome (State × Event) Fault Refusal) :
    onRow true o = deliver o := rfl

/-- Running the row that the reader's state and the byte select is `RX.PUSH` of the byte. -/
theorem exec_decodeWireByte (b : Byte) (s : State) :
    exec (decodeWireByte s.rxState b) s = exec (.rxPush b) s := by
  rw [exec_rxPush]
  cases hs : s.rxState <;> cases hc : classify b <;>
    simp [decodeWireByte, pushByte, exec, hs, hc, execRxIdleFlag, execRxIdleEsc, execRxIdleData,
      execRxFrameStartFlag, execRxFrameStartEsc, execRxFrameStartData, execRxInFrameFlag,
      execRxInFrameEsc, execRxInFrameData, execRxInFrameEscapeFlag, execRxInFrameEscapeEsc,
      execRxInFrameEscapeData]

/-- A FLAG or ESC row of the state `st`, whose one byte is `b`. -/
theorem fixedRow_selected_or_refused (st : RxState) {i : Instr} (b : Byte)
    (hi : i = decodeWireByte st b) (s : State) (o : Host.Outcome (State × Event) Fault Refusal) :
    (∃ b, i = decodeWireByte s.rxState b) ∨
    onRow (s.rxState == st) o = .refused .rowNotSelected := by
  by_cases hs : s.rxState = st
  · exact .inl ⟨b, hs ▸ hi⟩
  · exact .inr (by simp [onRow, hs])

/-- The DATA row of the state `st` on the byte `b`. -/
theorem dataRow_selected_or_refused {st : RxState} {i : Instr} {b : Byte}
    (hi : classify b = .data → i = decodeWireByte st b) (s : State)
    (o : Host.Outcome (State × Event) Fault Refusal) :
    (∃ b, i = decodeWireByte s.rxState b) ∨
    onRow (s.rxState == st && classify b == .data) o = .refused .rowNotSelected := by
  by_cases hc : classify b = .data
  · simpa [hc] using fixedRow_selected_or_refused st b (hi hc) s o
  · exact .inr (by simp [onRow, hc])

/-- A transition row is the one R120 selects for some byte, or it is refused (log 12). -/
theorem transition_selected_or_refused (s : State) : (i : Instr) → i.isTransition = true →
    (∃ b, i = decodeWireByte s.rxState b) ∨ exec i s = .refused .rowNotSelected
  | .rxIdleFlag, _ => fixedRow_selected_or_refused .idle 0x7E rfl s _
  | .rxIdleEsc, _ => fixedRow_selected_or_refused .idle 0x7D rfl s _
  | .rxIdleData _, _ => dataRow_selected_or_refused (fun h => by simp [decodeWireByte, h]) s _
  | .rxFrameStartFlag, _ => fixedRow_selected_or_refused .frameStart 0x7E rfl s _
  | .rxFrameStartEsc, _ => fixedRow_selected_or_refused .frameStart 0x7D rfl s _
  | .rxFrameStartData _, _ => dataRow_selected_or_refused (fun h => by simp [decodeWireByte, h]) s _
  | .rxInFrameFlag, _ => fixedRow_selected_or_refused .inFrame 0x7E rfl s _
  | .rxInFrameEsc, _ => fixedRow_selected_or_refused .inFrame 0x7D rfl s _
  | .rxInFrameData _, _ => dataRow_selected_or_refused (fun h => by simp [decodeWireByte, h]) s _
  | .rxInFrameEscapeFlag, _ => fixedRow_selected_or_refused .inFrameEscape 0x7E rfl s _
  | .rxInFrameEscapeEsc, _ => fixedRow_selected_or_refused .inFrameEscape 0x7D rfl s _
  | .rxInFrameEscapeData _, _ =>
    dataRow_selected_or_refused (fun h => by simp [decodeWireByte, h]) s _

/-! ### What an instruction that answers has done -/

/-- `RX.PUSH b`, or the row it runs in the state `st`. -/
def PushesByte (i : Instr) (st : RxState) (b : Byte) : Prop :=
  i = .rxPush b ∨ i = decodeWireByte st b

theorem exec_of_pushesByte {i : Instr} {s : State} {b : Byte} (h : PushesByte i s.rxState b) :
    exec i s = exec (.rxPush b) s := by
  rcases h with rfl | rfl
  · rfl
  · exact exec_decodeWireByte b s

theorem resultCount_of_pushesByte {i : Instr} {st : RxState} {b : Byte} (h : PushesByte i st b) :
    i.resultCount = 1 := by
  rcases h with rfl | rfl
  · rfl
  · cases st <;> cases hc : classify b <;> simp [decodeWireByte, hc, Instr.resultCount]

theorem resultCount_of_isPure {i : Instr} (h : i.isPure = true) : i.resultCount = 1 := by
  cases i
  case escapePair => cases h
  all_goals rfl

/-- A row or `RX.PUSH` that answers is the push of one byte. -/
theorem pushesByte_of_exec_next {i : Instr} {s t : State}
    (hi : i.isTransition = true ∨ ∃ b, i = .rxPush b) (h : exec i s = .next t) :
    ∃ b, PushesByte i s.rxState b := by
  rcases hi with hi | ⟨b, rfl⟩
  · rcases transition_selected_or_refused s i hi with ⟨b, hb⟩ | hr
    · exact ⟨b, .inr hb⟩
    · rw [hr] at h
      cases h
  · exact ⟨b, .inl rfl⟩

theorem exec_escapePair_of_next {b : Byte} {s u : State} (h : exec (.rxPush 0x7D) s = .next u) :
    exec (.escapePair b) s = exec (.rxPush b) u := by
  have hesc : deliver (pushByte Config.esc s) = .next u := h
  rw [exec_rxPush, exec, execEscapePair, hesc]

/-- A pure instruction that answers hands out a result and does nothing else (R7). -/
theorem exec_pure_next {i : Instr} {s t : State} (hi : i.isPure = true) (h : exec i s = .next t) :
    ∃ r, t = s.emit r := by
  rcases pureInstructionsDependOnOperandsAlone i s s hi rfl with ⟨r, hr, -⟩ | ⟨q, hq, -⟩
  · rw [hr] at h
    injection h with h
    exact ⟨r, h.symm⟩
  · rw [hq] at h
    cases h

/-- An instruction that answers handed out the result of a pure operation, or pushed one byte, or
pushed the two of `ESCAPE.PAIR`. -/
theorem exec_next_cases {i : Instr} {s t : State} (h : exec i s = .next t) :
    (i.isPure = true ∧ ∃ r, t = s.emit r) ∨
    (∃ b, PushesByte i s.rxState b ∧ exec (.rxPush b) s = .next t) ∨
    (∃ b u, i = .escapePair b ∧ exec (.rxPush 0x7D) s = .next u ∧
      exec (.rxPush b) u = .next t) := by
  have push (hi : i.isTransition = true ∨ ∃ b, i = .rxPush b) :
      ∃ b, PushesByte i s.rxState b ∧ exec (.rxPush b) s = .next t := by
    obtain ⟨b, hb⟩ := pushesByte_of_exec_next hi h
    exact ⟨b, hb, exec_of_pushesByte hb ▸ h⟩
  rcases instr_kinds i with hi | hi | hi | ⟨b, rfl⟩
  · exact .inl ⟨hi, exec_pure_next hi h⟩
  · exact .inr (.inl (push (.inl hi)))
  · exact .inr (.inl (push (.inr hi)))
  · obtain ⟨u, hu, ht⟩ := exec_escapePair_inv h
    exact .inr (.inr ⟨b, u, rfl, hu, ht⟩)

/-! ### One byte, by the kind of its transition -/

theorem pushByte_of_move {b : Byte} {s : State} {st : RxState}
    (hm : moveTarget s.rxState (classify b) = some st) :
    pushByte b s = .next ({ s with rxState := st }, .none) := by
  rw [pushByte_eq, hm]

theorem pushByte_closing_flag {s : State} (hst : s.rxState = .inFrame)
    (hle : s.rxLen ≤ s.cfg.rxCap) : pushByte 0x7E s = .next (completeContent s.content s) := by
  rw [pushByte, hst]
  exact complete_of_le hle

theorem pushByte_of_append {b : Byte} {s : State} (hm : moveTarget s.rxState (classify b) = none)
    (hf : ¬ (s.rxState = .inFrame ∧ b = 0x7E)) :
    pushByte b s = appendByte (appendedByte s.rxState b) s := by
  rw [pushByte_eq, hm]
  exact if_neg hf

/-- The end of a frame, whatever the checks find in the content: the buffer is empty, the counter
may go up, an event is handed out; which and by how much depends on the content alone (R135). -/
theorem completeContent_ends_frame (c : List Byte) : ∃ (n : Nat) (e : Event), ∀ s : State,
    completeContent c s = ({ s.frameDone with fcsErrCnt := s.fcsErrCnt + n }, e) := by
  unfold completeContent
  by_cases hlen : c.length < Config.minFrame
  · exact ⟨0, .none, fun _ => if_pos hlen⟩
  by_cases hfcs : fcsCheck (fcsRun Config.fcsInit c) = true
  · cases hd : pppDecode (c.take (c.length - 2)) with
    | none => exact ⟨0, .none, fun _ => (if_neg hlen).trans (if_pos hfcs)⟩
    | some f => exact ⟨0, .frame f, fun _ => (if_neg hlen).trans (if_pos hfcs)⟩
  · exact ⟨1, .none, fun _ => (if_neg hlen).trans (if_neg hfcs)⟩

/-! ### The frame of every instruction -/

theorem exec_rxPush_frame {b : Byte} {s t : State} (h : exec (.rxPush b) s = .next t) :
    SameRest s t ∧ ∃ e, t.results = s.results ++ [.event e] ∧
    (e ≠ .frameTooLong → ¬ (s.rxState = .inFrame ∧ b = 0x7E) →
      SameBytesBut [s.rxLen] s t ∧ (t.rxLen ≠ s.rxLen + 1 → SameBytesBut [] s t)) := by
  obtain ⟨u, e, hp, rfl⟩ := deliver_next h
  obtain ⟨hrest, hresults, hbytes⟩ := pushByte_frame hp
  refine ⟨⟨hrest.accm, hrest.cfg, hrest.pending⟩, e, by simp [hresults], fun he hflag => ?_⟩
  refine ⟨fun a ha => hbytes he hflag a (by simpa using ha), fun hlen a _ => ?_⟩
  rcases pushByte_cases hp with ⟨st, -, rfl, -⟩ | ⟨hst, hb, -⟩ | ⟨-, -, -, rfl, -⟩ |
    ⟨-, -, -, -, hlong⟩
  · rfl
  · exact absurd ⟨hst, hb⟩ hflag
  · exact absurd rfl hlen
  · exact absurd hlong he

/-- Settles O31: a row or `RX.PUSH` is the push of one byte, and the row that a flag selects in
`InFrame` is `RX.PUSH@InFrame.FLAG`. -/
theorem readerInstructionsFrame : Obligations.ReaderInstructionsFrame := by
  intro s t i hi h
  obtain ⟨b, hb⟩ := pushesByte_of_exec_next hi h
  obtain ⟨hrest, e, hresults, hbytes⟩ := exec_rxPush_frame (exec_of_pushesByte hb ▸ h)
  refine ⟨hrest, e, hresults, fun he hrow hpush => hbytes he ?_⟩
  rintro ⟨hst, rfl⟩
  rcases hb with hb | hb
  · exact hpush ⟨hst, hb⟩
  · rw [hst] at hb
    exact hrow hb

/-- Settles O57: a pure operation emits one result, a push one event, an escape pair two. -/
theorem everyInstructionKeepsConstantsAndAppendsResults :
    Obligations.EveryInstructionKeepsConstantsAndAppendsResults := by
  intro i s t h
  rcases exec_next_cases h with ⟨hi, r, rfl⟩ | ⟨b, hb, hpush⟩ | ⟨b, u, rfl, hesc, hpush⟩
  · exact ⟨⟨rfl, rfl, rfl⟩, [r], rfl, (resultCount_of_isPure hi).symm⟩
  · obtain ⟨hrest, e, hresults, -⟩ := exec_rxPush_frame hpush
    exact ⟨hrest, [.event e], hresults, (resultCount_of_pushesByte hb).symm⟩
  · obtain ⟨hrest₁, e₁, hresults₁, -⟩ := exec_rxPush_frame hesc
    obtain ⟨hrest₂, e₂, hresults₂, -⟩ := exec_rxPush_frame hpush
    exact ⟨hrest₁.trans hrest₂, [.event e₁, .event e₂], by simp [hresults₂, hresults₁], rfl⟩

/-! ### The invariant -/

/-- The host's queue and the results are no part of the invariant. -/
theorem State.Inv.setHost {s : State} (h : s.Inv) (p : List Issue) (r : List Result) :
    ({ s with pending := p, results := r } : State).Inv :=
  ⟨h.cap, h.accm, h.memForm, h.memInside, h.memWritten, h.lenCap, h.idleLen, h.frameStartLen,
    h.inFrameLen⟩

theorem State.Inv.emit {s : State} (h : s.Inv) (r : Result) : (s.emit r).Inv := h.setHost _ _

/-- No move enters `InFrame`, and one that ends outside a frame began outside it. -/
theorem moveTarget_some {st st' : RxState} {c : ByteClass} (h : moveTarget st c = some st') :
    st' ≠ .inFrame ∧ (st' = .idle ∨ st' = .frameStart → st = .idle ∨ st = .frameStart) := by
  cases st <;> cases c <;> cases h <;> simp

theorem State.Inv.move {s : State} {c : ByteClass} {st : RxState} (h : s.Inv)
    (hm : moveTarget s.rxState c = some st) : ({ s with rxState := st } : State).Inv := by
  obtain ⟨hne, hout⟩ := moveTarget_some hm
  have hlen (hst : st = .idle ∨ st = .frameStart) : s.rxLen = 0 :=
    (hout hst).elim h.idleLen h.frameStartLen
  exact ⟨h.cap, h.accm, h.memForm, h.memInside, h.memWritten, h.lenCap, fun hst => hlen (.inl hst),
    fun hst => hlen (.inr hst), fun hst => absurd hst hne⟩

theorem State.Inv.stored {s : State} (h : s.Inv) (hlt : s.rxLen < s.cfg.rxCap) (v : Byte) :
    (s.stored v).Inv where
  cap := h.cap
  accm := h.accm
  memForm := Memory.wf_write h.memForm _ _
  memInside c hc := by
    rcases Memory.mem_write hc with rfl | hc
    · exact hlt
    · exact h.memInside c hc
  memWritten a ha := by
    rw [State.stored_rxBuf, Memory.read?_write]
    split
    · rfl
    · rw [State.stored_rxLen] at ha
      exact h.memWritten a (by omega)
  lenCap := hlt
  idleLen := nofun
  frameStartLen := nofun
  inFrameLen _ := Nat.le_add_left 1 s.rxLen

theorem pushByte_keeps_inv {b : Byte} {s t : State} {e : Event} (hinv : s.Inv)
    (h : pushByte b s = .next (t, e)) : t.Inv := by
  rcases pushByte_cases h with ⟨st, hm, rfl, -⟩ | ⟨-, -, -, hc⟩ | ⟨-, -, hlt, rfl, -⟩ |
    ⟨-, -, -, rfl, -⟩
  · exact hinv.move hm
  · obtain ⟨n, e', hdone⟩ := completeContent_ends_frame s.content
    rw [hdone] at hc
    injection hc with ht _
    subst ht
    exact .of_empty hinv.cap hinv.accm rfl rfl nofun
  · exact hinv.stored hlt _
  · exact .of_empty hinv.cap hinv.accm rfl rfl nofun

theorem exec_rxPush_keeps_inv {b : Byte} {s t : State} (hinv : s.Inv)
    (h : exec (.rxPush b) s = .next t) : t.Inv := by
  obtain ⟨u, e, hp, rfl⟩ := deliver_next h
  exact (pushByte_keeps_inv hinv hp).emit _

theorem exec_keeps_inv {i : Instr} {s t : State} (hinv : s.Inv) (h : exec i s = .next t) :
    t.Inv := by
  rcases exec_next_cases h with ⟨-, r, rfl⟩ | ⟨b, -, hpush⟩ | ⟨b, u, -, hesc, hpush⟩
  · exact hinv.emit r
  · exact exec_rxPush_keeps_inv hinv hpush
  · exact exec_rxPush_keeps_inv (exec_rxPush_keeps_inv hinv hesc) hpush

/-- Settles O3: a step waits, or takes an operation off the queue and runs it. -/
theorem stepKeepsInvariant : Obligations.StepKeepsInvariant := by
  intro s t hinv h
  rcases step_next_cases h with ⟨-, rfl⟩ | ⟨it, rest, i, -, -, hi⟩
  · exact hinv
  · exact exec_keeps_inv (hinv.setHost rest s.results) hi

/-! ### Stale bytes -/

namespace SameButStaleBytes

variable {s t : State}

theorem emit (h : SameButStaleBytes s t) (r : Result) :
    SameButStaleBytes (s.emit r) (t.emit r) :=
  ⟨h.rxState, h.rxLen, h.fcsErrCnt, ⟨h.rest.accm, h.rest.cfg, h.rest.pending⟩,
    by simp [h.results], h.content⟩

theorem setPending (h : SameButStaleBytes s t) (p : List Issue) :
    SameButStaleBytes { s with pending := p } { t with pending := p } :=
  ⟨h.rxState, h.rxLen, h.fcsErrCnt, ⟨h.rest.accm, h.rest.cfg, rfl⟩, h.results, h.content⟩

theorem setRxState (h : SameButStaleBytes s t) (st : RxState) :
    SameButStaleBytes { s with rxState := st } { t with rxState := st } :=
  ⟨rfl, h.rxLen, h.fcsErrCnt, ⟨h.rest.accm, h.rest.cfg, h.rest.pending⟩, h.results, h.content⟩

/-- With nothing stored every byte of the buffer is stale, so its contents need not agree. -/
theorem dropContent (h : SameButStaleBytes s t) :
    SameButStaleBytes s.dropContent t.dropContent :=
  ⟨h.rxState, rfl, h.fcsErrCnt, ⟨h.rest.accm, h.rest.cfg, h.rest.pending⟩, h.results, nofun⟩

theorem setFcsErrCnt (h : SameButStaleBytes s t) (n : Nat) :
    SameButStaleBytes { s with fcsErrCnt := n } { t with fcsErrCnt := n } :=
  ⟨h.rxState, h.rxLen, rfl, ⟨h.rest.accm, h.rest.cfg, h.rest.pending⟩, h.results, h.content⟩

/-- The byte at `rx_len`, stale before, is written before `rx_len` moves past it. -/
theorem stored (h : SameButStaleBytes s t) (v : Byte) :
    SameButStaleBytes (s.stored v) (t.stored v) where
  rxState := rfl
  rxLen := by simp [h.rxLen]
  fcsErrCnt := h.fcsErrCnt
  rest := ⟨h.rest.accm, h.rest.cfg, h.rest.pending⟩
  results := h.results
  content a ha := by
    rw [State.stored_rxByte, State.stored_rxByte, h.rxLen]
    split
    · rfl
    · rw [State.stored_rxLen] at ha
      exact h.content a (by omega)

theorem content_eq (h : SameButStaleBytes s t) : t.content = s.content := by
  rw [State.content, State.content, h.rxLen]
  exact List.map_congr_left fun a ha => h.content a (List.mem_range.1 ha)

theorem fetch_eq (h : SameButStaleBytes s t) (it : Issue) : fetch it t = fetch it s := by
  rw [fetch, fetch, h.rxState]

theorem completeContent_same (h : SameButStaleBytes s t) (c : List Byte) :
    (completeContent c t).2 = (completeContent c s).2 ∧
    SameButStaleBytes (completeContent c s).1 (completeContent c t).1 := by
  obtain ⟨n, e, hdone⟩ := completeContent_ends_frame c
  rw [hdone, hdone, h.fcsErrCnt]
  exact ⟨rfl, (h.dropContent.setRxState _).setFcsErrCnt _⟩

/-- The transition taken, the event and what becomes of the frame come from the byte, `rx_state`,
`rx_len`, `RX_CAP` and the content. -/
theorem pushByte_same (h : SameButStaleBytes s t) {b : Byte} {u : State} {e : Event}
    (hp : pushByte b s = .next (u, e)) :
    ∃ v, pushByte b t = .next (v, e) ∧ SameButStaleBytes u v := by
  rcases pushByte_cases hp with ⟨st, hm, rfl, rfl⟩ | ⟨hst, rfl, hle, hc⟩ | ⟨hm, hf, hlt, rfl, rfl⟩ |
    ⟨hm, hf, hfull, rfl, rfl⟩
  · rw [← h.rxState] at hm
    exact ⟨_, pushByte_of_move hm, h.setRxState st⟩
  · obtain ⟨he, hsame⟩ := h.completeContent_same s.content
    rw [← hc] at he hsame
    rw [← h.rxState] at hst
    rw [← h.rxLen, ← h.rest.cfg] at hle
    rw [pushByte_closing_flag hst hle, h.content_eq]
    exact ⟨_, congrArg _ (Prod.ext rfl he), hsame⟩
  · rw [← h.rxState] at hm hf
    rw [← h.rxLen, ← h.rest.cfg] at hlt
    rw [pushByte_of_append hm hf, appendByte_of_lt _ hlt, h.rxState]
    exact ⟨_, rfl, h.stored _⟩
  · rw [← h.rxState] at hm hf
    rw [← h.rxLen, ← h.rest.cfg] at hfull
    rw [pushByte_of_append hm hf, appendByte_of_eq _ hfull]
    exact ⟨_, rfl, h.dropContent.setRxState _⟩

theorem exec_rxPush_same (h : SameButStaleBytes s t) {b : Byte} {u : State}
    (hx : exec (.rxPush b) s = .next u) :
    ∃ v, exec (.rxPush b) t = .next v ∧ SameButStaleBytes u v := by
  obtain ⟨u, e, hp, rfl⟩ := deliver_next hx
  obtain ⟨v, hv, hsame⟩ := h.pushByte_same hp
  exact ⟨v.emit (.event e), by rw [exec_rxPush, hv, deliver_of_next], hsame.emit _⟩

theorem exec_same (h : SameButStaleBytes s t) {i : Instr} {u : State}
    (hx : exec i s = .next u) : ∃ v, exec i t = .next v ∧ SameButStaleBytes u v := by
  rcases exec_next_cases hx with ⟨hi, -⟩ | ⟨b, hb, hpush⟩ | ⟨b, w, rfl, hesc, hpush⟩
  · rcases pureInstructionsDependOnOperandsAlone i s t hi h.rest.accm.symm with
      ⟨r, hs, ht⟩ | ⟨q, hs, -⟩
    · rw [hs] at hx
      injection hx with hu
      subst hu
      exact ⟨t.emit r, ht, h.emit r⟩
    · rw [hs] at hx
      cases hx
  · rw [exec_of_pushesByte (h.rxState ▸ hb : PushesByte i t.rxState b)]
    exact h.exec_rxPush_same hpush
  · obtain ⟨w', hw, hsame⟩ := h.exec_rxPush_same hesc
    obtain ⟨v, hv, hsame'⟩ := hsame.exec_rxPush_same hpush
    exact ⟨v, (exec_escapePair_of_next hw).trans hv, hsame'⟩

end SameButStaleBytes

/-- Settles O58: a step decodes by `rx_state` and runs the instruction, neither of which sees a
stale byte. -/
theorem stepIgnoresStaleBytes : Obligations.StepIgnoresStaleBytes := by
  intro s t u h hstep
  rcases step_next_cases hstep with ⟨hp, rfl⟩ | ⟨it, rest, i, hp, hf, hx⟩
  · exact ⟨t, step_of_pending_nil (h.rest.pending.trans hp), h⟩
  · rw [step_of_fetch_ok (h.rest.pending.trans hp) ((h.fetch_eq it).trans hf)]
    exact (h.setPending rest).exec_same hx

end Sys2Proof.Machine
end

section
/-! PROOFS of the family 30_encoding.md, first part: decoding and encoding are each other's inverse
(R50, R52, R54, R56, R58, R59, R62, R68), and why bytes decode to nothing (R62, R64). -/

namespace Sys2Proof

/-! ### Decoding what was encoded -/

/-- The DATA row of a reader state (R50). -/
def dataRow : RxState → Byte → Instr
  | .idle, b => .rxIdleData b
  | .frameStart, b => .rxFrameStartData b
  | .inFrame, b => .rxInFrameData b
  | .inFrameEscape, b => .rxInFrameEscapeData b

theorem decodeWireByte_data (st : RxState) {b : Byte} (h : classify b = .data) :
    decodeWireByte st b = dataRow st b := by
  cases st <;> simp [decodeWireByte, h, dataRow]

/-- A DATA row's byte decodes to it in the row's state; `h` is the row's well-formedness. -/
theorem decode_dataRow (st : RxState) {b : Byte} (h : (classify b == .data) = true) :
    decode (.wireByte st) [b] = .ok (dataRow st b) :=
  congrArg Except.ok (decodeWireByte_data st (beq_iff_eq.1 h))

@[simp] theorem lowBit_oddByte (p : BitVec 7) : lowBit (oddByte p) = true := by
  obtain ⟨h, -⟩ := headerByte_facts p
  exact h

@[simp] theorem lowBit_evenByte (p : BitVec 7) : lowBit (evenByte p) = false := by
  obtain ⟨-, h, -⟩ := headerByte_facts p
  exact h

@[simp] theorem upper7_oddByte (p : BitVec 7) : upper7 (oddByte p) = p := by
  obtain ⟨-, -, h, -⟩ := headerByte_facts p
  exact h

@[simp] theorem upper7_evenByte (p : BitVec 7) : upper7 (evenByte p) = p := by
  obtain ⟨-, -, -, h, -⟩ := headerByte_facts p
  exact h

theorem decodeHeader_full (p : BitVec 7) (q : Byte) (body : List Byte) :
    decodeHeader (0xFF :: 0x03 :: evenByte p :: q :: body) = .ok (.headerFull p q body) := by
  simp [decodeHeader, Config.addr, Config.ctrl]

theorem decodeHeader_pfc (p : BitVec 7) (body : List Byte) :
    decodeHeader (0xFF :: 0x03 :: oddByte p :: body) = .ok (.headerPfc p body) := by
  simp [decodeHeader, Config.addr, Config.ctrl]

theorem decodeHeader_acfcPfc {p : BitVec 7} (h : oddByte p ≠ Config.addr) (body : List Byte) :
    decodeHeader (oddByte p :: body) = .ok (.headerAcfcPfc p body) := by
  simp [decodeHeader, h]

/-- The operands of `OPT.PUT` read back: the capacity, then a buffer with its length in front
(log 3). -/
theorem decodeOp_optPut (buf : List Byte) (cap : Nat) (t : Byte) (value : List Byte) :
    decodeOp 0x32 (encodeNat cap ++ (encodeNat buf.length ++ (buf ++ t :: value))) =
      .ok (.optPut buf cap t value) := by
  simp [decodeOp, decodeNat_encodeNat]

theorem decodeOp_optEmit (cap : Nat) (list : List TlvOption) :
    decodeOp 0x33 (encodeNat cap ++ encodeOptions list) = .ok (.optEmit cap list) := by
  simp [decodeOp, decodeNat_encodeNat, decodeOptions_encodeOptions]

/-- Row by row: a 16-bit operand joins up again, a byte operand stands as it is. -/
theorem decode_encode : (i : Instr) → i.WellFormed → decode (encode i).1 (encode i).2 = .ok i
  | .fcsInit, _ => rfl
  | .fcsUpdate acc b, _ => congrArg (fun a => Except.ok (Instr.fcsUpdate a b)) (be16_hi8_lo8 acc)
  | .fcsRun acc s, _ => congrArg (fun a => Except.ok (Instr.fcsRun a s)) (be16_hi8_lo8 acc)
  | .fcsFinal acc, _ => congrArg (fun a => Except.ok (Instr.fcsFinal a)) (be16_hi8_lo8 acc)
  | .fcsCheck acc, _ => congrArg (fun a => Except.ok (Instr.fcsCheck a)) (be16_hi8_lo8 acc)
  | .escNeeds _, _ => rfl
  | .escEnc _, _ => rfl
  | .escStuff _, _ => rfl
  | .pppEncode p s, _ => congrArg (fun a => Except.ok (Instr.pppEncode a s)) (be16_hi8_lo8 p)
  | .txWrite p s, _ => congrArg (fun a => Except.ok (Instr.txWrite a s)) (be16_hi8_lo8 p)
  | .rxPush _, _ => rfl
  | .pppDecode _, _ => rfl
  | .escUnstuff _, _ => rfl
  | .optNext _, _ => rfl
  | .optParse _, _ => rfl
  | .optPut buf cap t value, _ => decodeOp_optPut buf cap t value
  | .optEmit cap list, _ => decodeOp_optEmit cap list
  | .rxIdleFlag, _ => rfl
  | .rxIdleEsc, _ => rfl
  | .rxIdleData _, h => decode_dataRow .idle h
  | .rxFrameStartFlag, _ => rfl
  | .rxFrameStartEsc, _ => rfl
  | .rxFrameStartData _, h => decode_dataRow .frameStart h
  | .rxInFrameFlag, _ => rfl
  | .rxInFrameEsc, _ => rfl
  | .rxInFrameData _, h => decode_dataRow .inFrame h
  | .rxInFrameEscapeFlag, _ => rfl
  | .rxInFrameEscapeEsc, _ => rfl
  | .rxInFrameEscapeData _, h => decode_dataRow .inFrameEscape h
  | .escapePair _, _ => rfl
  | .headerFull p q body, _ => decodeHeader_full p q body
  | .headerPfc p body, _ => decodeHeader_pfc p body
  | .headerAcfcPfc _ body, h => decodeHeader_acfcPfc (bne_iff_ne.1 h) body
  | .fcsField _ _, _ => rfl
  | .optionTlv _ _ _, _ => rfl
  | .controlPacket c i len tail, _ =>
    congrArg (fun a => Except.ok (Instr.controlPacket c i a tail)) (be16_hi8_lo8 len)

/-- Settles O5: `decode_encode`, by the constructors of `Instr`. -/
theorem decodeInvertsEncode : Obligations.DecodeInvertsEncode := decode_encode

/-! ### Encoding what was decoded -/

/-- `bytes` under the format `f` are the encoding of `i`, and a row of the table holds `i`. -/
def Encodes (i : Instr) (f : Format) (bytes : List Byte) : Prop :=
  i.WellFormed ∧ encode i = (f, bytes)

theorem encodes_optPut {args : List Byte} {i : Instr} (h : decodeOp 0x32 args = .ok i) :
    Encodes i .op (0x32 :: args) := by
  simp only [decodeOp, BitVec.reduceToNat] at h
  split at h
  · cases h
  next cap rest hcap =>
    split at h
    · cases h
    next n rest' hn =>
      split at h
      next t value hdrop =>
        cases h
        have hlen : (rest'.take n).length = n := by
          have hleft := congrArg List.length hdrop
          rw [List.length_drop, List.length_cons] at hleft
          rw [List.length_take]
          omega
        have hrest : rest' = rest'.take n ++ t :: value := by rw [← hdrop, List.take_append_drop]
        refine ⟨rfl, ?_⟩
        rw [encode, hlen, ← hrest, ← decodeNat_spelling _ _ _ hn, ← decodeNat_spelling _ _ _ hcap]
      · cases h

theorem encodes_optEmit {args : List Byte} {i : Instr} (h : decodeOp 0x33 args = .ok i) :
    Encodes i .op (0x33 :: args) := by
  simp only [decodeOp, BitVec.reduceToNat] at h
  split at h
  · cases h
  next cap rest hcap =>
    split at h
    · cases h
    next list hlist =>
      cases h
      refine ⟨rfl, ?_⟩
      rw [encode, ← decodeOptionsFuel_spelling _ _ _ hlist, ← decodeNat_spelling _ _ _ hcap]

/-- The operation number is read off the table of R62; then the operand bytes have the one shape
that the operation takes. -/
theorem encodes_of_decodeOp {op : Byte} {args : List Byte} {i : Instr}
    (h : decodeOp op args = .ok i) : Encodes i .op (op :: args) := by
  have number {n : Nat} (hop : op.toNat = n) : op = BitVec.ofNat 8 n := by
    rw [← hop, BitVec.ofNat_toNat, BitVec.setWidth_eq]
  have hdec := h
  unfold decodeOp at h
  split at h
  -- the arms in the order of R62's table: 18 is an unassigned number, 16 and 17 are `OPT.PUT` and
  -- `OPT.EMIT`, and 8, 12 to 15 take all operand bytes as one sequence
  case h_18 => cases h
  all_goals
    rename_i hop
    obtain rfl := number hop
  case h_16 => exact encodes_optPut hdec
  case h_17 => exact encodes_optEmit hdec
  case h_8 | h_12 | h_13 | h_14 | h_15 => cases h; exact ⟨rfl, rfl⟩
  all_goals
    split at h <;> cases h
    exact ⟨rfl, by simp [encode, hi8_be16, lo8_be16]⟩

/-- A line byte is the one byte of the row it selects. -/
theorem encodes_decodeWireByte (st : RxState) (b : Byte) :
    Encodes (decodeWireByte st b) (.wireByte st) [b] := by
  cases hc : classify b
  case flag => obtain rfl := Machine.classify_eq_flag.1 hc; cases st <;> exact ⟨rfl, rfl⟩
  case esc => obtain rfl := Machine.classify_eq_esc.1 hc; cases st <;> exact ⟨rfl, rfl⟩
  case data =>
    rw [decodeWireByte_data st hc]
    cases st <;> exact ⟨beq_iff_eq.2 hc, rfl⟩

/-- The first byte tells the header form, or bit 0 of the third (R54, R55). -/
theorem encodes_of_decodeHeader {bytes : List Byte} {i : Instr}
    (h : decodeHeader bytes = .ok i) : Encodes i .header bytes := by
  unfold decodeHeader at h
  split at h
  · cases h
  next a rest =>
    split at h
    next ha =>
      split at h
      next c ph rest' =>
        split at h
        next hc =>
          subst ha hc
          split at h
          next hodd =>
            cases h
            exact ⟨rfl, by rw [encode, oddByte_upper7 ph hodd]; rfl⟩
          next heven =>
            split at h <;> cases h
            exact ⟨rfl, by rw [encode, evenByte_upper7 ph (Bool.eq_false_iff.2 heven)]; rfl⟩
        · cases h
      · cases h
    next ha =>
      split at h
      next hodd =>
        cases h
        have hbyte := oddByte_upper7 a hodd
        exact ⟨bne_iff_ne.2 (by rwa [hbyte]), by rw [encode, hbyte]⟩
      · cases h

theorem encodes_of_decode : {f : Format} → {bytes : List Byte} → {i : Instr} →
    decode f bytes = .ok i → Encodes i f bytes
  | .op, _ :: _, _, h => encodes_of_decodeOp h
  | .wireByte st, [b], _, h => by cases h; exact encodes_decodeWireByte st b
  | .wirePair, [e, b], _, h => by
    by_cases he : e = Config.esc
    · subst he; cases h; exact ⟨rfl, rfl⟩
    · cases (if_neg he).symm.trans h
  | .header, _, _, h => encodes_of_decodeHeader h
  | .trailer, [_, _], _, h => by cases h; exact ⟨rfl, rfl⟩
  | .tlv, _ :: _ :: _, _, h => by cases h; exact ⟨rfl, rfl⟩
  | .packet, c :: i :: a :: l :: tail, _, h => by
    cases h
    exact ⟨rfl, by rw [encode, hi8_be16, lo8_be16]⟩

/-- Settles O6: `encodes_of_decode`, format by format. -/
theorem decodedBytesAreTheEncoding : Obligations.DecodedBytesAreTheEncoding :=
  fun _ _ _ h => encodes_of_decode h

/-! ### Bytes that decode to nothing -/

theorem decodeOp_of_unassigned {op : Byte} (h : op.toNat ∉ assignedOps) (args : List Byte) :
    decodeOp op args = .error (.unassignedOp op) := by
  unfold decodeOp
  split
  case h_18 => rfl
  all_goals next hop => exact absurd (by rw [hop]; decide) h

/-- An assigned number whose operands do not parse is refused for its operands (log 3). -/
theorem decodeOp_error_of_assigned {op : Byte} {args : List Byte} {e : DecodeError}
    (hop : op.toNat ∈ assignedOps) (h : decodeOp op args = .error e) : e = .badOperands op := by
  unfold decodeOp at h
  split at h
  -- the arms as in `encodes_of_decodeOp`
  case h_18 => simp_all [assignedOps]
  case h_16 | h_17 =>
    repeat' split at h
    all_goals cases h <;> rfl
  case h_8 | h_12 | h_13 | h_14 | h_15 => cases h
  all_goals
    split at h <;> cases h
    rfl

theorem decodeHeader_error {bytes : List Byte} {e : DecodeError}
    (h : decodeHeader bytes = .error e) : e = .noHeaderForm := by
  unfold decodeHeader at h
  repeat' split at h
  all_goals cases h <;> rfl

/-- Only an operation number outside R62's table is called unassigned. -/
theorem decode_unassigned {f : Format} {bytes : List Byte} {op : Byte}
    (h : decode f bytes = .error (.unassignedOp op)) :
    ∃ args, f = .op ∧ bytes = op :: args ∧ op.toNat ∉ assignedOps := by
  cases f
  case op =>
    match bytes, h with
    | op' :: args, h =>
      by_cases hop : op'.toNat ∈ assignedOps
      · cases decodeOp_error_of_assigned hop h
      · cases (decodeOp_of_unassigned hop args).symm.trans h
        exact ⟨args, rfl, rfl, hop⟩
  case header => cases decodeHeader_error h
  case wirePair =>
    simp only [decode] at h
    split at h
    · split at h <;> cases h
    · cases h
  all_goals
    simp only [decode] at h
    split at h <;> cases h

end Sys2Proof
end

section
/-! PROOFS of the family 30_encoding.md, second part: the layout rows (R52, R54, R56, R58, R59), the
operations `RX.FEEDALL` expands to (R67), and what a step refuses (R62, R64, R234). -/

namespace Sys2Proof.Machine

/-- Settles O7: the decoder computes on each of the words. -/
theorem writtenOutWordsDecode : Obligations.WrittenOutWordsDecode :=
  ⟨rfl, rfl, rfl, rfl, rfl, rfl, rfl, rfl, rfl, rfl, rfl, rfl, rfl, rfl⟩

/-- Settles O8: `decodeOp_of_unassigned`. -/
theorem unassignedOperationsAreRefused : Obligations.UnassignedOperationsAreRefused :=
  fun _ _ args _ hop hp => step_of_fetch_error hp (decodeOp_of_unassigned hop args)

/-! ### The header rows (R54, R136) -/

/-- The Protocol of `HEADER.FULL` as a number (R55). -/
theorem be16_evenByte (p : BitVec 7) (q : Byte) :
    be16 (evenByte p) q = BitVec.ofNat 16 (p.toNat * 512 + q.toNat) := by
  obtain ⟨-, -, -, -, -, heven⟩ := headerByte_facts p
  rw [be16_eq, heven, Nat.mul_assoc]

/-- The Protocol of the two compressed rows as a number (R55). -/
theorem zext16_oddByte (p : BitVec 7) :
    zext16 (oddByte p) = BitVec.ofNat 16 (p.toNat * 2 + 1) := by
  obtain ⟨-, -, -, -, hodd, -⟩ := headerByte_facts p
  rw [zext16, ← BitVec.ofNat_toNat, hodd]

theorem pppDecode_headerFull (p : BitVec 7) (q : Byte) (x : List Byte) :
    pppDecode (encode (.headerFull p q x)).2 = some (frameOf (be16 (evenByte p) q) x) :=
  decodeProtocol_even (lowBit_evenByte p) q x

theorem pppDecode_headerPfc (p : BitVec 7) (x : List Byte) :
    pppDecode (encode (.headerPfc p x)).2 = some (frameOf (zext16 (oddByte p)) x) :=
  decodeProtocol_odd (lowBit_oddByte p) x

theorem pppDecode_headerAcfcPfc {p : BitVec 7} (h : oddByte p ≠ Config.addr) (x : List Byte) :
    pppDecode (encode (.headerAcfcPfc p x)).2 = some (frameOf (zext16 (oddByte p)) x) :=
  (pppDecode_compressed h (lowBit_oddByte p) x).trans (decodeProtocol_odd (lowBit_oddByte p) x)

/-- `PPP.DECODE` of a content that starts with a header delivers its Protocol and body. -/
theorem exec_pppDecode_of_some {d : List Byte} {f : Frame} (h : pppDecode d = some f) (s : State) :
    exec (.pppDecode d) s = .next (s.emit (.frame f)) := by
  rw [exec, execPppDecode, h]
  rfl

theorem exec_pppDecode_of_none {d : List Byte} (h : pppDecode d = none) (s : State) :
    exec (.pppDecode d) s = .next (s.emit .reject) := by
  rw [exec, execPppDecode, h]
  rfl

theorem exec_headerAcfcPfc {p : BitVec 7} (h : oddByte p ≠ Config.addr) (x : List Byte)
    (s : State) :
    exec (.headerAcfcPfc p x) s = .next (s.emit (.frame (frameOf (zext16 (oddByte p)) x))) :=
  if_neg h

/-- The three rows of R54 are `PPP.DECODE` of their bytes. -/
theorem exec_pppDecode_of_encodes {i : Instr} {bytes : List Byte} (h : Encodes i .header bytes)
    (s : State) : exec (.pppDecode bytes) s = exec i s := by
  obtain ⟨hwf, henc⟩ := h
  cases i <;> cases henc
  case headerFull p q x => exact exec_pppDecode_of_some (pppDecode_headerFull p q x) s
  case headerPfc p x => exact exec_pppDecode_of_some (pppDecode_headerPfc p x) s
  case headerAcfcPfc p x =>
    have hp : oddByte p ≠ Config.addr := bne_iff_ne.1 hwf
    rw [exec_headerAcfcPfc hp, ← exec_pppDecode_of_some (pppDecode_headerAcfcPfc hp x) s, encode]

/-- Settles O35: the Protocol values are `be16_evenByte` and `zext16_oddByte`, and the address-less
row is well-formed off `0xFF`. -/
theorem headerRowsAgreeWithPppDecode : Obligations.HeaderRowsAgreeWithPppDecode := by
  intro s p q x
  have hp (h : p ≠ 0x7F) : oddByte p ≠ Config.addr := mt (oddByte_eq_addr p).1 h
  refine ⟨?_, ?_, ?_, ?_, fun h => ?_, fun h => ?_, rfl⟩
  · rw [← be16_evenByte]; rfl
  · exact (exec_pppDecode_of_encodes ⟨rfl, rfl⟩ s).symm
  · rw [← zext16_oddByte]; rfl
  · exact (exec_pppDecode_of_encodes ⟨rfl, rfl⟩ s).symm
  · rw [exec_headerAcfcPfc (hp h), zext16_oddByte]; rfl
  · have hwf : (Instr.headerAcfcPfc p x).WellFormed := bne_iff_ne.2 (hp h)
    exact (exec_pppDecode_of_encodes ⟨hwf, rfl⟩ s).symm

/-- After `FF` the header decoder finds wrong what R136 rejects: a control byte that is not `03`, or
no whole Protocol field. -/
theorem pppDecode_of_no_full_header : {x : List Byte} → {e : DecodeError} →
    decodeHeader (0xFF :: x) = .error e → pppDecode (0xFF :: x) = none
  | [], _, _ => rfl
  | [c], _, _ => by
    by_cases hc : c = 0x03
    · subst hc; rfl
    · exact pppDecode_control hc []
  | c :: p :: x, _, h => by
    by_cases hc : c = 0x03
    · subst hc
      change (if lowBit p = true then _ else _) = _ at h
      cases hp : lowBit p
      case false =>
        cases x with
        | nil => exact decodeProtocol_even_alone hp
        | cons q body => cases (if_neg (Bool.eq_false_iff.1 hp)).symm.trans h
      case true => cases (if_pos hp).symm.trans h
    · exact pppDecode_control hc (p :: x)

/-- `PPP.DECODE` delivers no content but those the header rows decode from. -/
theorem pppDecode_of_no_header : {d : List Byte} → {e : DecodeError} →
    decodeHeader d = .error e → pppDecode d = none
  | [], _, _ => rfl
  | a :: rest, _, h => by
    by_cases ha : a = Config.addr
    · subst ha
      exact pppDecode_of_no_full_header h
    · cases hb : lowBit a
      · exact pppDecode_even hb rest
      · cases ((if_neg ha).trans (if_pos hb)).symm.trans h

/-- Settles O36: a content that decodes is the encoding of the row, and `PPP.DECODE` of that is
the row. -/
theorem pppDecodeIsTheHeaderRows : Obligations.PppDecodeIsTheHeaderRows :=
  fun s _ => ⟨fun _ h => exec_pppDecode_of_encodes (encodes_of_decode h) s,
    fun _ h => exec_pppDecode_of_none (pppDecode_of_no_header h) s⟩

/-! ### The rows OPTION.TLV, FCS.FIELD and CONTROL.PACKET (R56, R58, R59) -/

theorem exec_optionTlv (t l : Byte) (x : List Byte) (s : State) :
    exec (.optionTlv t l x) s = .next (s.emit (nextResult (optNext (t :: l :: x)))) := rfl

/-- Settles O46: the row runs `OPT.NEXT` on its own bytes, so its outcomes are `optNext`'s. -/
theorem optionTlvIsOptNext : Obligations.OptionTlvIsOptNext := by
  intro s t l x
  refine ⟨rfl, fun hbad => ?_, fun hge hle => ?_⟩
  · rw [exec_optionTlv, optNext_bad hbad]; rfl
  · rw [exec_optionTlv, optNext_item hge hle]; rfl

theorem exec_fcsField (low high : Byte) (s : State) :
    exec (.fcsField low high) s = .next (s.emit (.fcs (be16 high low) low high)) := rfl

/-- Settles O54: `be16` as a number (R8), and joining the bytes a 16-bit value was split in. -/
theorem fcsFieldReadsWhatFinalSplit : Obligations.FcsFieldReadsWhatFinalSplit := by
  intro s low high acc
  have hjoin : be16 (fcsFinal acc).2.2 (fcsFinal acc).2.1 = (fcsFinal acc).1 := be16_hi8_lo8 _
  refine ⟨?_, ?_⟩
  · rw [exec_fcsField, be16_eq]
  · rw [exec_fcsField, hjoin]; rfl

theorem packetResult_of_split {len : Half} {x body beyond : List Byte} (code id : Byte)
    (h : splitCounted 4 len.toNat x = some (body, beyond)) :
    packetResult code id len x = .packet code id len (some body) beyond := by
  rw [packetResult, h]

theorem packetResult_of_bad {len : Half} {x : List Byte} (code id : Byte)
    (h : splitCounted 4 len.toNat x = none) :
    packetResult code id len x = .packet code id len none x := by
  rw [packetResult, h]

theorem exec_controlPacket (code id : Byte) (len : Half) (x : List Byte) (s : State) :
    exec (.controlPacket code id len x) s = .next (s.emit (packetResult code id len x)) := rfl

/-- Settles O55: where the body ends is where a field counted from 4 header bytes ends (R65). -/
theorem controlPacketEndsAfterLen : Obligations.ControlPacketEndsAfterLen := by
  intro s code id len x
  refine ⟨fun body beyond hx hlen => ?_, fun hbad => ?_, fun h l hlen => ?_⟩
  · subst hx
    rw [exec_controlPacket, packetResult_of_split code id (splitCounted_append hlen)]
  · rw [exec_controlPacket, packetResult_of_bad code id (splitCounted_of_bad hbad)]
  · rw [hlen, ← be16_eq]; rfl

/-! ### The reader's bytes, by the kind of their transition -/

theorem exec_rxPush_moves {b : Byte} {s : State} {st : RxState}
    (hm : moveTarget s.rxState (classify b) = some st) :
    ∃ t, exec (.rxPush b) s = .next t ∧ Moved s t st := by
  rw [exec_rxPush, pushByte_of_move hm]
  exact ⟨_, rfl, ⟨rfl, rfl, rfl, ⟨rfl, rfl, rfl⟩, rfl⟩, fun _ _ => rfl⟩

theorem exec_rxPush_appends {b : Byte} {s : State} (hm : moveTarget s.rxState (classify b) = none)
    (hf : ¬ (s.rxState = .inFrame ∧ b = 0x7E)) (hlt : s.rxLen < s.cfg.rxCap) :
    ∃ t, exec (.rxPush b) s = .next t ∧ Appended s (appendedByte s.rxState b) t := by
  rw [exec_rxPush, pushByte_of_append hm hf, appendByte_of_lt _ hlt]
  refine ⟨_, rfl, ⟨rfl, rfl, rfl, ⟨rfl, rfl, rfl⟩, rfl⟩, ?_, fun a ha => ?_⟩
  · exact (State.stored_rxByte s _ _).trans (if_pos rfl)
  · exact (State.stored_rxByte s _ _).trans (if_neg (by simpa using ha))

theorem exec_rxPush_overflows {b : Byte} {s : State} (hm : moveTarget s.rxState (classify b) = none)
    (hf : ¬ (s.rxState = .inFrame ∧ b = 0x7E)) (hfull : s.rxLen = s.cfg.rxCap) :
    ∃ t, exec (.rxPush b) s = .next t ∧ Overflowed s t := by
  rw [exec_rxPush, pushByte_of_append hm hf, appendByte_of_eq _ hfull]
  exact ⟨_, rfl, rfl, rfl, rfl, ⟨rfl, rfl, rfl⟩, rfl⟩

/-- The escape that begins a pair in a frame: the reader goes to `InFrameEscape` (R126, R129). -/
theorem exec_rxPush_esc_in_frame {s : State} (h : s.rxState = .frameStart ∨ s.rxState = .inFrame) :
    ∃ u, exec (.rxPush 0x7D) s = .next u ∧ Moved s u .inFrameEscape :=
  exec_rxPush_moves (by rcases h with h | h <;> rw [h] <;> rfl)

/-- In `InFrameEscape` any byte, flag and escape included, is appended with bit 5 inverted (R131 to
R133). -/
theorem exec_rxPush_in_escape {u : State} (h : u.rxState = .inFrameEscape) (b : Byte) :
    (u.rxLen < u.cfg.rxCap → ∃ t, exec (.rxPush b) u = .next t ∧ Appended u (b ^^^ 0x20) t) ∧
    (u.rxLen = u.cfg.rxCap → ∃ t, exec (.rxPush b) u = .next t ∧ Overflowed u t) := by
  have hm : moveTarget u.rxState (classify b) = none := by rw [h]; rfl
  have hf : ¬ (u.rxState = .inFrame ∧ b = 0x7E) := by simp [h]
  have hv : appendedByte u.rxState b = b ^^^ 0x20 := by rw [h]; rfl
  exact ⟨fun hlt => hv ▸ exec_rxPush_appends hm hf hlt, exec_rxPush_overflows hm hf⟩

/-- In `Idle` a flag starts the frame search, any other byte is discarded (R122 to R124). -/
theorem exec_rxPush_in_idle {u : State} (h : u.rxState = .idle) (b : Byte) :
    ∃ t, exec (.rxPush b) u = .next t ∧ Moved u t (if b = 0x7E then .frameStart else .idle) := by
  refine exec_rxPush_moves ?_
  rw [h]
  split
  next hb => rw [hb]; rfl
  next hb =>
    cases hc : classify b
    · exact absurd (classify_eq_flag.1 hc) hb
    · rfl
    · rfl

/-- Settles O32: the pair is two pushes, of which the first moves the reader to `InFrameEscape`, or
leaves it in `Idle`, with `rx_len` as before. -/
theorem escapePairStoresTheByte : Obligations.EscapePairStoresTheByte := by
  intro s b
  refine ⟨fun u hu => exec_escapePair_of_next hu, fun hst hlt => ?_, fun hst hfull => ?_,
    fun hst => ?_⟩
  · obtain ⟨u, hu, hmoved⟩ := exec_rxPush_esc_in_frame hst
    have hbecame := hmoved.1
    obtain ⟨t, ht, happ⟩ := (exec_rxPush_in_escape hbecame.rxState b).1
      (by rwa [hbecame.rxLen, hbecame.rest.cfg])
    exact ⟨u, t, hu, ht, (exec_escapePair_of_next hu).trans ht, hmoved, happ⟩
  · obtain ⟨u, hu, hmoved⟩ := exec_rxPush_esc_in_frame hst
    have hbecame := hmoved.1
    obtain ⟨t, ht, hover⟩ := (exec_rxPush_in_escape hbecame.rxState b).2
      (by rwa [hbecame.rxLen, hbecame.rest.cfg])
    exact ⟨u, t, hu, ht, (exec_escapePair_of_next hu).trans ht, hmoved, hover⟩
  · obtain ⟨u, hu, hmoved⟩ := exec_rxPush_in_idle hst 0x7D
    obtain ⟨t, ht, hmoved'⟩ := exec_rxPush_in_idle hmoved.1.rxState b
    exact ⟨u, t, hu, ht, (exec_escapePair_of_next hu).trans ht, hmoved, hmoved'⟩

/-! ### RX.FEEDALL as steps (R67, R138) -/

/-- `RX.FEEDALL` of a byte and more, read backwards. -/
theorem rxFeedAll_cons_inv {b : Byte} {x : List Byte} {s t : State} {es : List Event}
    (h : rxFeedAll (b :: x) s = .next (t, es)) :
    ∃ u e es', pushByte b s = .next (u, e) ∧ rxFeedAll x u = .next (t, es') ∧
      es = if e = .none then es' else e :: es' := by
  simp only [rxFeedAll] at h
  split at h
  next u e hp =>
    split at h
    next t' es' hx => cases h; exact ⟨u, e, es', hp, hx, rfl⟩
    · cases h
    · cases h
  · cases h
  · cases h

/-- The oldest operation issued is `RX.PUSH b`: the step is the push, whatever is queued behind. -/
theorem step_rxPush {b : Byte} {s u : State} {e : Event} (h : pushByte b s = .next (u, e))
    (p : List Issue) (r : List Result) :
    step { s with pending := { channel := .op, bytes := [0x20, b] } :: p, results := r } =
      .next { u with pending := p, results := r ++ [.event e] } := by
  rw [step_of_fetch_ok (i := .rxPush b) rfl rfl, exec_rxPush]
  show deliver (pushByte b { s with pending := p, results := r }) = _
  rw [pushByte_queue, h]
  rfl

theorem run_of_step {s t : State} (h : step s = .next t) (k : Nat) :
    Host.Core.run core (k + 1) s = Host.Core.run core k t := by
  have hstep : core.step s = .next t := h
  simp only [Host.Core.run, hstep]

/-- `rxFeedAll` by steps, with anything in the results before and in the queue behind. -/
theorem run_feedIssues {x : List Byte} {s t : State} {es : List Event}
    (h : rxFeedAll x s = .next (t, es)) :
    ∃ evs : List Event, evs.length = x.length ∧ evs.filter (fun e => e ≠ .none) = es ∧
      ∀ (rest : List Issue) (r : List Result),
        Host.Core.run core x.length { s with pending := feedIssues x ++ rest, results := r } =
          .next { t with pending := rest, results := r ++ evs.map .event } := by
  induction x generalizing s es with
  | nil =>
    cases h
    exact ⟨[], rfl, rfl, fun rest r => by rw [List.map_nil, List.append_nil]; rfl⟩
  | cons b x ih =>
    obtain ⟨u, e, es', hp, hx, rfl⟩ := rxFeedAll_cons_inv h
    obtain ⟨evs, hlen, hfilter, hrun⟩ := ih hx
    refine ⟨e :: evs, congrArg (· + 1) hlen, ?_, fun rest r => ?_⟩
    · rw [List.filter_cons, hfilter]
      by_cases he : e = .none <;> simp [he]
    · have hstep := step_rxPush hp (feedIssues x ++ rest) r
      have hrest := hrun rest (r ++ [.event e])
      rw [List.append_assoc] at hrest
      exact (run_of_step hstep x.length).trans hrest

/-- Settles O44: `run_feedIssues` from the results there are. -/
theorem feedAllRunsAsSteps : Obligations.FeedAllRunsAsSteps := by
  intro s t x es rest h
  obtain ⟨evs, hlen, hfilter, hrun⟩ := run_feedIssues h
  exact ⟨evs, hlen, hfilter, hrun rest s.results⟩

/-! ### What a step refuses (R62, R64, R137, R162, R163, R234) -/

/-- A stuffed sequence meets the precondition of R137. -/
theorem unstuffOk_of_unstuffs {x out : List Byte} (h : Unstuffs x out) : unstuffOk x = true := by
  induction h with
  | nil => rfl
  | pair c _ ih => exact ih
  | @plain b x _ hesc hflag _ ih =>
    have hesc' : b ≠ Config.esc := hesc
    have hflag' : b ≠ Config.flag := hflag
    cases x <;> simp [unstuffOk, hesc', hflag', ih]

theorem exec_rxPush_ne_refused (b : Byte) (s : State) (r : Refusal) :
    exec (.rxPush b) s ≠ .refused r := by
  rw [exec_rxPush]
  cases hp : pushByte b s with
  | next p => exact nofun
  | fault f => exact nofun
  | refused q => exact absurd hp (pushByte_ne_refused b s q)

theorem exec_escapePair_ne_refused (b : Byte) (s : State) (r : Refusal) :
    exec (.escapePair b) s ≠ .refused r := by
  rw [exec, execEscapePair]
  split
  next u _ => exact exec_rxPush_ne_refused b u r
  · exact nofun
  next q hesc => exact absurd hesc (exec_rxPush_ne_refused 0x7D s q)

theorem exec_optPut_refused {buf : List Byte} {cap : Nat} {t : Byte} {v : List Byte} {s : State}
    {r : Refusal} (h : exec (.optPut buf cap t v) s = .refused r) :
    (r = .optValueTooLong ∧ 253 < v.length) ∨ (r = .optBufferOverCap ∧ cap < buf.length) := by
  by_cases hv : Config.optMaxVal < v.length
  · cases (if_pos hv).symm.trans h
    exact .inl ⟨rfl, hv⟩
  by_cases hb : cap < buf.length
  · cases ((if_neg hv).trans (if_pos hb)).symm.trans h
    exact .inr ⟨rfl, hb⟩
  · simp only [exec, execOptPut, if_neg hv, if_neg hb] at h
    split at h <;> cases h

theorem exec_optEmit_refused {cap : Nat} {l : List TlvOption} {s : State} {r : Refusal}
    (h : exec (.optEmit cap l) s = .refused r) : r = .optValueTooLong ∧ ¬ ValuesFit l := by
  by_cases hv : valuesFit l = true
  · simp only [exec, execOptEmit, if_pos hv] at h
    split at h <;> cases h
  · cases (if_neg hv).symm.trans h
    exact ⟨rfl, mt (valuesFit_iff l).2 hv⟩

theorem exec_escUnstuff_refused {x : List Byte} {s : State} {r : Refusal}
    (h : exec (.escUnstuff x) s = .refused r) :
    r = .unstuffPrecondition ∧ ∀ out, ¬ Unstuffs x out := by
  by_cases hok : unstuffOk x = true
  · cases (if_pos hok).symm.trans h
  · cases (if_neg hok).symm.trans h
    exact ⟨rfl, fun out hx => hok (unstuffOk_of_unstuffs hx)⟩

theorem exec_optParse_ne_refused (x : List Byte) (s : State) (r : Refusal) :
    exec (.optParse x) s ≠ .refused r := by
  rw [exec, execOptParse]
  split <;> exact nofun

/-- What a pure instruction that a row of the table holds can refuse: operand values of
`ESC.UNSTUFF`, `OPT.PUT` and `OPT.EMIT`. -/
inductive RefusesOperands : Instr → Refusal → Prop where
  | unstuff {x : List Byte} (h : ∀ out, ¬ Unstuffs x out) :
      RefusesOperands (.escUnstuff x) .unstuffPrecondition
  | putValue {buf : List Byte} {cap : Nat} {t : Byte} {v : List Byte} (h : 253 < v.length) :
      RefusesOperands (.optPut buf cap t v) .optValueTooLong
  | putBuffer {buf : List Byte} {cap : Nat} {t : Byte} {v : List Byte} (h : cap < buf.length) :
      RefusesOperands (.optPut buf cap t v) .optBufferOverCap
  | emit {cap : Nat} {l : List TlvOption} (h : ¬ ValuesFit l) :
      RefusesOperands (.optEmit cap l) .optValueTooLong

theorem exec_pure_refused {i : Instr} {s : State} {r : Refusal} (hwf : i.WellFormed)
    (hpure : i.isPure = true) (h : exec i s = .refused r) : RefusesOperands i r := by
  cases i
  case escUnstuff x =>
    obtain ⟨rfl, hx⟩ := exec_escUnstuff_refused h
    exact .unstuff hx
  case optPut buf cap t v =>
    rcases exec_optPut_refused h with ⟨rfl, hv⟩ | ⟨rfl, hb⟩
    · exact .putValue hv
    · exact .putBuffer hb
  case optEmit cap l =>
    obtain ⟨rfl, hl⟩ := exec_optEmit_refused h
    exact .emit hl
  case optParse x => exact absurd h (exec_optParse_ne_refused x s r)
  case headerAcfcPfc p x => cases (exec_headerAcfcPfc (bne_iff_ne.1 hwf) x s).symm.trans h
  case rxPush | escapePair | rxIdleFlag | rxIdleEsc | rxIdleData | rxFrameStartFlag |
      rxFrameStartEsc | rxFrameStartData | rxInFrameFlag | rxInFrameEsc | rxInFrameData |
      rxInFrameEscapeFlag | rxInFrameEscapeEsc | rxInFrameEscapeData => cases hpure
  -- every other pure instruction answers
  all_goals cases h

/-- Only the rows of the reader's table are keyed by a reader state (R50). -/
theorem encode_of_isTransition {i : Instr} (h : i.isTransition = true) :
    ∃ st b, encode i = (.wireByte st, [b]) := by
  cases i
  case rxIdleFlag | rxIdleEsc | rxIdleData | rxFrameStartFlag | rxFrameStartEsc | rxFrameStartData |
      rxInFrameFlag | rxInFrameEsc | rxInFrameData | rxInFrameEscapeFlag | rxInFrameEscapeEsc |
      rxInFrameEscapeData => exact ⟨_, _, rfl⟩
  all_goals cases h

theorem channelFormat_wireByte {st st' : RxState} {c : Channel}
    (h : channelFormat st c = .wireByte st') : st' = st := by
  cases c <;> cases h
  rfl

theorem channelFormat_op {st : RxState} {c : Channel} (h : channelFormat st c = .op) : c = .op := by
  cases c <;> cases h
  rfl

/-- A transition row that is fetched is the one selected in the reader's present state (R120). -/
theorem fetch_transition {it : Issue} {s : State} {i : Instr} (h : fetch it s = .ok i)
    (hi : i.isTransition = true) : ∃ b, i = decodeWireByte s.rxState b := by
  obtain ⟨st, b, henc⟩ := encode_of_isTransition hi
  obtain ⟨hwf, henc'⟩ := encodes_of_decode h
  rw [henc] at henc'
  injection henc' with hformat hbytes
  obtain rfl := channelFormat_wireByte hformat.symm
  rw [fetch, ← hformat, ← hbytes] at h
  cases h
  exact ⟨b, rfl⟩

/-- A fetched instruction that is refused is a pure one, refused for its operands: a push is never
refused, and a row that is fetched is selected. -/
theorem fetched_refused {it : Issue} {s : State} {i : Instr} {r : Refusal} {rest : List Issue}
    (hf : fetch it s = .ok i) (h : exec i { s with pending := rest } = .refused r) :
    RefusesOperands i r := by
  rcases instr_kinds i with hi | hi | ⟨b, rfl⟩ | ⟨b, rfl⟩
  · exact exec_pure_refused (encodes_of_decode hf).1 hi h
  · obtain ⟨b, rfl⟩ := fetch_transition hf hi
    have hpush := (exec_decodeWireByte b { s with pending := rest }).symm.trans h
    exact absurd hpush (exec_rxPush_ne_refused b _ r)
  · exact absurd h (exec_rxPush_ne_refused b _ r)
  · exact absurd h (exec_escapePair_ne_refused b _ r)

theorem step_refused_cases {s : State} {r : Refusal} (h : step s = .refused r) :
    ∃ it rest, s.pending = it :: rest ∧
      ((∃ e, fetch it s = .error e ∧ r = .undecodable e) ∨
        ∃ i, fetch it s = .ok i ∧ exec i { s with pending := rest } = .refused r) := by
  unfold step at h
  split at h
  · cases h
  next it rest hp =>
    refine ⟨it, rest, hp, ?_⟩
    split at h
    next i hf => exact .inr ⟨i, hf, h⟩
    next e hf => cases h; exact .inl ⟨e, hf, rfl⟩

/-- Bytes that decode to nothing are no instruction's. -/
theorem encode_ne_of_error {f : Format} {bytes : List Byte} {e : DecodeError}
    (h : decode f bytes = .error e) (i : Instr) (hwf : i.WellFormed) : encode i ≠ (f, bytes) := by
  intro henc
  have hok := decode_encode i hwf
  rw [henc] at hok
  cases hok.symm.trans h

/-- Settles O60: the bytes decode to nothing, and then their number is unassigned or they encode no
instruction; or the instruction fetched is refused for its operands. -/
theorem stepsRefuseOnlyNonInstructionsAndRefusedOperands :
    Obligations.StepsRefuseOnlyNonInstructionsAndRefusedOperands := by
  intro s r h
  obtain ⟨it, rest, hp, ⟨e, hf, rfl⟩ | ⟨i, hf, hx⟩⟩ := step_refused_cases h
  · refine ⟨it, rest, hp, ?_⟩
    by_cases hun : ∃ op args, it.channel = .op ∧ it.bytes = op :: args ∧ op.toNat ∉ assignedOps
    · obtain ⟨op, args, hch, hbytes, hop⟩ := hun
      rw [fetch, hch, hbytes] at hf
      cases (decodeOp_of_unassigned hop args).symm.trans hf
      exact .inl ⟨op, args, hch, hbytes, hop, rfl⟩
    · refine .inr (.inl ⟨e, rfl, ?_, encode_ne_of_error hf, fun op args hch hbytes => ?_⟩)
      · rintro op rfl
        obtain ⟨args, hformat, hbytes, hop⟩ := decode_unassigned hf
        exact hun ⟨op, args, channelFormat_op hformat, hbytes, hop⟩
      · by_contra hop
        exact hun ⟨op, args, hch, hbytes, hop⟩
  · refine ⟨it, rest, hp, .inr (.inr ?_)⟩
    cases fetched_refused hf hx with
    | unstuff hout => exact .inl ⟨_, rfl, hf, hout⟩
    | putValue hv => exact .inr (.inl ⟨_, _, _, _, rfl, hf, hv⟩)
    | putBuffer hb => exact .inr (.inr (.inl ⟨_, _, _, _, rfl, hf, hb⟩))
    | emit hl => exact .inr (.inr (.inr ⟨_, _, rfl, hf, hl⟩))

end Sys2Proof.Machine
end

section
/-! PROOFS of the family 40_fcs.md: what the five operations hand out (R81, R82, R84, R85, R87), the
table form of the update (R83), the residue of a content and its FCS (R88), by linearity, and that a
changed byte changes the accumulator (R87, R89), by injectivity. -/

namespace Sys2Proof.Machine

/-! ### What the operations hand out -/

@[simp] theorem exec_fcsUpdate (acc : Half) (b : Byte) (s : State) :
    exec (.fcsUpdate acc b) s = .next (s.emit (.acc (fcsUpdate acc b))) := rfl

@[simp] theorem exec_fcsRun (acc : Half) (x : List Byte) (s : State) :
    exec (.fcsRun acc x) s = .next (s.emit (.acc (fcsRun acc x))) := rfl

@[simp] theorem exec_fcsCheck (acc : Half) (s : State) :
    exec (.fcsCheck acc) s = .next (s.emit (.truth (decide (acc = 0xF0B8)))) := rfl

/-- Settles O9: the initial accumulator is a constant of the model. -/
theorem fcsInitReturnsAllOnes : Obligations.FcsInitReturnsAllOnes := fun _ => rfl

/-- Settles O10: the statement's loop is `fcsRounds 8` written out, and the corner cases compute. -/
theorem fcsUpdateRunsEightRounds : Obligations.FcsUpdateRunsEightRounds :=
  fun _ _ _ => ⟨rfl, by decide, by decide, by decide, by decide, by decide⟩

/-- Settles O12: a run is a fold, and `fcsRun_append` cuts it in two. -/
theorem fcsRunFoldsUpdate : Obligations.FcsRunFoldsUpdate := by
  intro s acc
  refine ⟨rfl, fun _ _ => rfl, fun x y => ?_⟩
  rw [exec_fcsRun, fcsRun_append]

/-- Settles O13: both sides are the same words by definition. -/
theorem fcsFinalAndCheckResults : Obligations.FcsFinalAndCheckResults :=
  fun s acc => ⟨rfl, exec_fcsCheck acc s, fun _ => rfl⟩

/-! ### The table form (R83) -/

/-- R83: `T[i] = FCS.UPDATE(0, i)`, for each of the 256 transcribed entries. -/
theorem fcsTableEntry_eq : ∀ i : Byte, fcsTableEntry i = fcsRounds 8 (zext16 i) := by decide

theorem lo8_xor (x y : Half) : lo8 (x ^^^ y) = lo8 x ^^^ lo8 y := BitVec.extractLsb'_xor

theorem hi8_xor (x y : Half) : hi8 (x ^^^ y) = hi8 x ^^^ hi8 y := BitVec.extractLsb'_xor

theorem zext16_xor (a b : Byte) : zext16 (a ^^^ b) = zext16 a ^^^ zext16 b := BitVec.setWidth_xor

@[simp] theorem lo8_zext16 (b : Byte) : lo8 (zext16 b) = b :=
  (BitVec.extractLsb'_setWidth_of_le (by decide)).trans BitVec.extractLsb'_eq_self

theorem fcsUpdate_eq_fcsUpdateByTable (acc : Half) (b : Byte) :
    fcsUpdate acc b = fcsUpdateByTable acc b := by
  rw [fcsUpdate_split, fcsUpdateByTable, fcsTableEntry_eq, lo8_xor, lo8_zext16]

/-- Settles O11: `fcsUpdate_eq_fcsUpdateByTable`. -/
theorem fcsUpdateEqualsTableForm : Obligations.FcsUpdateEqualsTableForm := by
  intro s acc b
  rw [exec_fcsUpdate, fcsUpdate_eq_fcsUpdateByTable]
  rfl

/-! ### The residue (R88): an accumulator run over its own two bytes vanishes, and by linearity what
the complement adds is the run of two bytes `FF` from zero -/

/-- An update is linear over XOR in the accumulator and the byte together. -/
theorem fcsUpdate_xor (x y : Half) (b c : Byte) :
    fcsUpdate (x ^^^ y) (b ^^^ c) = fcsUpdate x b ^^^ fcsUpdate y c := by
  have regroup : x ^^^ y ^^^ zext16 (b ^^^ c) = (x ^^^ zext16 b) ^^^ (y ^^^ zext16 c) := by
    rw [zext16_xor]; ac_rfl
  rw [fcsUpdate, regroup, fcsRounds_xor]
  rfl

theorem fcsRounds_zero : fcsRounds 8 0 = 0 := by decide

theorem zext16_zero : zext16 0 = 0 := rfl

/-- The low byte of the accumulator, fed to it, leaves the high byte. -/
theorem fcsUpdate_lo8 (acc : Half) : fcsUpdate acc (lo8 acc) = zext16 (hi8 acc) := by
  rw [fcsUpdate_split, LawfulXor.xor_self, zext16_zero, fcsRounds_zero, xor_zero, shift8]

theorem fcsUpdate_zext16 (b : Byte) : fcsUpdate (zext16 b) b = 0 := by
  rw [fcsUpdate, LawfulXor.xor_self, fcsRounds_zero]

theorem fcsRun_own_bytes (acc : Half) : fcsRun acc [lo8 acc, hi8 acc] = 0 := by
  rw [fcsRun_cons, fcsUpdate_lo8, fcsRun_cons, fcsUpdate_zext16, fcsRun_nil]

/-- R88 for any accumulator: its complement, low byte first, takes it to the residue. -/
theorem fcsRun_complement_bytes (acc : Half) :
    fcsRun acc [lo8 (acc ^^^ 0xFFFF), hi8 (acc ^^^ 0xFFFF)] = 0xF0B8 := by
  have ones : fcsRun 0 [lo8 0xFFFF, hi8 0xFFFF] = 0xF0B8 := by
    have first : fcsUpdate 0 (lo8 0xFFFF) = 0x0F78 := by decide
    have second : fcsUpdate 0x0F78 (hi8 0xFFFF) = 0xF0B8 := by decide
    rw [fcsRun_cons, first, fcsRun_cons, second, fcsRun_nil]
  calc fcsRun acc [lo8 (acc ^^^ 0xFFFF), hi8 (acc ^^^ 0xFFFF)]
      = fcsRun (acc ^^^ 0) [lo8 acc ^^^ lo8 0xFFFF, hi8 acc ^^^ hi8 0xFFFF] := by
        rw [lo8_xor, hi8_xor, xor_zero]
    _ = fcsRun acc [lo8 acc, hi8 acc] ^^^ fcsRun 0 [lo8 0xFFFF, hi8 0xFFFF] := by
        simp only [fcsRun_cons, fcsRun_nil, fcsUpdate_xor]
    _ = 0xF0B8 := by rw [fcsRun_own_bytes, ones, zero_xor]

/-- Settles O14: the run over the content ends in an accumulator, and `fcsRun_complement_bytes` says
what its complement does to it. -/
theorem fcsResidueOfEveryContent : Obligations.FcsResidueOfEveryContent := by
  intro c fcs low high h
  cases h
  rw [fcsRun_append]
  exact fcsRun_complement_bytes (fcsRun 0xFFFF c)

/-! ### A changed byte (R87, R89): no step of the loop loses anything -/

/-- The bit shifted out of a round comes back as bit 15: bit 15 of `POLY` is set. -/
theorem getLsbD_fcsRound_top (v : Half) : (fcsRound v).getLsbD 15 = v.getLsbD 0 := by
  have hpoly : Config.poly.getLsbD 15 = true := by decide
  rw [fcsRound]
  cases hbit : v.getLsbD 0 <;> simp [hpoly]

/-- A value is known from its lowest bit and its other bits. -/
theorem half_ext_shift {x y : Half} (hbit : x.getLsbD 0 = y.getLsbD 0)
    (hshift : x >>> 1 = y >>> 1) : x = y := by
  apply BitVec.eq_of_getLsbD_eq
  intro i hi
  cases i with
  | zero => exact hbit
  | succ i =>
    have h := congrArg (BitVec.getLsbD · i) hshift
    simpa [Nat.add_comm] using h

theorem fcsRound_injective : Function.Injective fcsRound := by
  intro x y h
  have hbit : x.getLsbD 0 = y.getLsbD 0 := by
    rw [← getLsbD_fcsRound_top, h, getLsbD_fcsRound_top]
  apply half_ext_shift hbit
  rw [fcsRound, fcsRound, hbit] at h
  split at h
  · exact (BitVec.xor_left_inj _).1 h
  · exact h

theorem fcsRounds_injective (n : Nat) : Function.Injective (fcsRounds n) := by
  induction n with
  | zero => exact Function.injective_id
  | succ n ih => exact ih.comp fcsRound_injective

theorem fcsUpdate_injective_acc {x y : Half} {b : Byte} (h : fcsUpdate x b = fcsUpdate y b) :
    x = y :=
  (BitVec.xor_left_inj _).1 (fcsRounds_injective 8 h)

theorem fcsUpdate_injective_byte {acc : Half} {b c : Byte} (h : fcsUpdate acc b = fcsUpdate acc c) :
    b = c := by
  have hz : zext16 b = zext16 c := (BitVec.xor_right_inj _).1 (fcsRounds_injective 8 h)
  rw [← lo8_zext16 b, hz, lo8_zext16]

/-- The same bytes keep two accumulators apart. -/
theorem fcsRun_injective {s : List Byte} {x y : Half} (h : fcsRun x s = fcsRun y s) : x = y := by
  induction s generalizing x y with
  | nil => exact h
  | cons b s ih => exact fcsUpdate_injective_acc (ih h)

/-- One byte among others is known from the accumulator after all of them. -/
theorem fcsRun_injective_byte {acc : Half} {x y : List Byte} {b c : Byte}
    (h : fcsRun acc (x ++ b :: y) = fcsRun acc (x ++ c :: y)) : b = c := by
  rw [fcsRun_append, fcsRun_append] at h
  exact fcsUpdate_injective_byte (fcsRun_injective h)

/-- Settles O15: were the residue the same, the byte would be (`fcsRun_injective_byte`). -/
theorem singleByteErrorsAreDetected : Obligations.SingleByteErrorsAreDetected := by
  intro s x y b d hd hgood
  have hbad : fcsRun 0xFFFF (x ++ (b ^^^ d) :: y) ≠ 0xF0B8 := by
    intro h
    have hb : b = b ^^^ d := fcsRun_injective_byte (hgood.trans h.symm)
    exact hd (xor_left_eq_self_iff.1 hb.symm)
  rw [exec_fcsCheck, decide_eq_false hbad]

end Sys2Proof.Machine
end

section
/-! PROOFS of the family 41_frame_writer.md: what the five operations hand out (R100 to R104), which
bytes a stuffed sequence and a written frame hold and how many (R101, R102, R106, R107), and that
`ESC.UNSTUFF` takes a stuffed sequence back (R111). -/

namespace Sys2Proof.Machine

/-! ### What the operations hand out -/

@[simp] theorem exec_escNeeds (b : Byte) (s : State) :
    exec (.escNeeds b) s = .next (s.emit (.truth (escNeeds s.txAccm b))) := rfl

@[simp] theorem exec_escEnc (b : Byte) (s : State) :
    exec (.escEnc b) s = .next (s.emit (.bytes (escEnc s.txAccm b))) := rfl

@[simp] theorem exec_escStuff (x : List Byte) (s : State) :
    exec (.escStuff x) s = .next (s.emit (.bytes (escStuff s.txAccm x))) := rfl

/-- An answer of a pure operation is known from the state it leaves. -/
theorem result_of_next_emit {s : State} {r q : Result}
    (h : (.next (s.emit r) : Host.Outcome State Fault Refusal) = .next (s.emit q)) : r = q := by
  injection h with h
  exact s.emit_injective h

/-- Settles O19: the high and the low byte of the statement are the model's `hi8` and `lo8`. -/
theorem pppEncodeResult : Obligations.PppEncodeResult := fun _ _ _ => rfl

/-- Settles O20: the statement's content and complement are `frameContent` written out. -/
theorem txWriteResult : Obligations.TxWriteResult := fun _ _ _ => rfl

/-! ### The escape predicate (R100) -/

/-- Under the all-ones map every byte below `0x20` needs its escape. -/
theorem escNeeds_allOnes_iff (b : Byte) :
    escNeeds 0xFFFFFFFF b = true ↔ b.toNat < 0x20 ∨ b = 0x7D ∨ b = 0x7E := by
  revert b; decide

theorem exec_escNeeds_of_iff {s : State} {b : Byte} {P : Prop} [Decidable P]
    (h : escNeeds s.txAccm b = true ↔ P) :
    exec (.escNeeds b) s = .next (s.emit (.truth (decide P))) := by
  rw [exec_escNeeds, Bool.eq_iff_iff.2 (h.trans decide_eq_true_iff.symm)]

/-- Settles O16: `escNeeds_iff`, and `escNeeds_allOnes_iff` for the all-ones map. -/
theorem escNeedsPredicate : Obligations.EscNeedsPredicate :=
  fun s b => ⟨exec_escNeeds_of_iff (escNeeds_iff s.txAccm b),
    fun hmap => exec_escNeeds_of_iff (hmap ▸ escNeeds_allOnes_iff b)⟩

/-! ### The bytes of one escaped byte (R101) -/

/-- The second byte of a pair that the writer sends (R106). -/
theorem pairByte_of_needed {accm : BitVec 32} {b : Byte} (h : escNeeds accm b = true) :
    b ^^^ 0x20 = 0x5D ∨ b ^^^ 0x20 = 0x5E ∨
      (0x20 ≤ (b ^^^ 0x20).toNat ∧ (b ^^^ 0x20).toNat ≤ 0x3F) :=
  pairByte_range b (((escNeeds_iff accm b).1 h).imp_right (Or.imp_right And.left))

/-- The second byte of a pair is neither of the specials. -/
theorem pairByte_ne_special {accm : BitVec 32} {b : Byte} (h : escNeeds accm b = true) :
    b ^^^ 0x20 ≠ 0x7D ∧ b ^^^ 0x20 ≠ 0x7E := by
  obtain h5D | h5E | ⟨-, hle⟩ := pairByte_of_needed h
  · rw [h5D]; decide
  · rw [h5E]; decide
  · exact ⟨fun hb => absurd (hb ▸ hle) (by decide), fun hb => absurd (hb ▸ hle) (by decide)⟩

theorem pairByte_ge {accm : BitVec 32} {b : Byte} (h : escNeeds accm b = true) :
    0x20 ≤ (b ^^^ 0x20).toNat := by
  obtain h5D | h5E | ⟨hge, -⟩ := pairByte_of_needed h
  · rw [h5D]; decide
  · rw [h5E]; decide
  · exact hge

theorem flag_notMem_escEnc (accm : BitVec 32) (b : Byte) : (0x7E : Byte) ∉ escEnc accm b := by
  cases h : escNeeds accm b
  · rw [escEnc_plain h]
    simpa using (plain_ne_special h).2.symm
  · rw [escEnc_needed h]
    simpa using (pairByte_ne_special h).2.symm

theorem esc_notMem_escEnc_tail (accm : BitVec 32) (b : Byte) :
    (0x7D : Byte) ∉ (escEnc accm b).tail := by
  cases h : escNeeds accm b
  · rw [escEnc_plain h]
    exact List.not_mem_nil
  · rw [escEnc_needed h]
    simpa using (pairByte_ne_special h).1.symm

/-- With the all-ones map no control character goes out as it is. -/
theorem ge_of_mem_escEnc_allOnes {b c : Byte} (h : c ∈ escEnc 0xFFFFFFFF b) : 0x20 ≤ c.toNat := by
  cases hb : escNeeds 0xFFFFFFFF b
  case false =>
    rw [escEnc_plain hb, List.mem_singleton] at h
    rw [h]
    by_contra hlow
    exact Bool.eq_false_iff.1 hb ((escNeeds_allOnes_iff b).2 (.inl (Nat.lt_of_not_le hlow)))
  case true =>
    rw [escEnc_needed hb, List.mem_pair] at h
    rcases h with rfl | rfl
    · decide
    · exact pairByte_ge hb

/-- Settles O17: the answer to `ESC.NEEDS` picks the branch of `escEnc`. -/
theorem escEncResult : Obligations.EscEncResult := by
  refine fun s b => ⟨escEnc s.txAccm b, exec_escEnc b s, fun h => ?_, fun h => ?_,
    flag_notMem_escEnc s.txAccm b, esc_notMem_escEnc_tail s.txAccm b⟩
  · injection result_of_next_emit h with h
    exact escEnc_needed h
  · injection result_of_next_emit h with h
    exact escEnc_plain h

/-! ### A stuffed sequence (R102) -/

theorem escEnc_eq_ite (accm : BitVec 32) (b : Byte) :
    escEnc accm b =
      if b = 0x7E ∨ b = 0x7D ∨ (b.toNat < 0x20 ∧ accm.getLsbD b.toNat = true)
      then [0x7D, b ^^^ 0x20] else [b] :=
  if_congr (escNeeds_iff accm b) rfl rfl

theorem escStuff_append (accm : BitVec 32) (x y : List Byte) :
    escStuff accm (x ++ y) = escStuff accm x ++ escStuff accm y := by
  simp only [escStuff_flatMap, List.flatMap_append]

theorem mem_escStuff {accm : BitVec 32} {x : List Byte} {c : Byte} :
    c ∈ escStuff accm x ↔ ∃ b ∈ x, c ∈ escEnc accm b := by
  rw [escStuff_flatMap, List.mem_flatMap]

theorem escStuff_length (accm : BitVec 32) (x : List Byte) :
    x.length ≤ (escStuff accm x).length ∧ (escStuff accm x).length ≤ 2 * x.length := by
  induction x with
  | nil => exact ⟨Nat.le_refl 0, Nat.le_refl 0⟩
  | cons b x ih =>
    have hb := escEnc_length accm b
    rw [escStuff, List.length_append, List.length_cons]
    omega

/-- A byte that needs its escape makes the sequence longer. -/
theorem length_lt_escStuff_length {accm : BitVec 32} {x : List Byte} {b : Byte} (hb : b ∈ x)
    (h : escNeeds accm b = true) : x.length < (escStuff accm x).length := by
  obtain ⟨u, v, rfl⟩ := List.append_of_mem hb
  have hu := (escStuff_length accm u).1
  have hv := (escStuff_length accm v).1
  rw [escStuff_append, escStuff, escEnc_needed h]
  simp only [List.length_append, List.length_cons, List.length_nil]
  omega

/-- Settles O18: `escStuff` is `escEnc` byte by byte, which appends. -/
theorem escStuffResult : Obligations.EscStuffResult := by
  refine fun s x y => ⟨escStuff s.txAccm x, escStuff s.txAccm y, exec_escStuff x s,
    exec_escStuff y s, ?_, ?_, escStuff_length s.txAccm x⟩
  · rw [exec_escStuff, escStuff_append]
  · rw [escStuff_flatMap]
    exact List.flatMap_congr fun b _ => escEnc_eq_ite s.txAccm b

/-! ### A written frame (R106, R107) -/

theorem txWrite_eq (accm : BitVec 32) (protocol : Half) (payload : List Byte) :
    txWrite accm protocol payload =
      0x7E :: (escStuff accm (frameContent protocol payload) ++ [0x7E]) := rfl

theorem flag_notMem_escStuff (accm : BitVec 32) (x : List Byte) :
    (0x7E : Byte) ∉ escStuff accm x := by
  rw [mem_escStuff]
  rintro ⟨b, -, hb⟩
  exact flag_notMem_escEnc accm b hb

/-- Every `7D` on the wire starts a pair: of a plain byte, of a pair's second byte and of what follows
the sequence none is `7D`. -/
theorem escape_starts_pair {accm : BitVec 32} {x t u v : List Byte} (ht : (0x7D : Byte) ∉ t)
    (h : escStuff accm x ++ t = u ++ 0x7D :: v) :
    ∃ b v', escNeeds accm b = true ∧ v = (b ^^^ 0x20) :: v' := by
  induction x generalizing u with
  | nil =>
    have ht' : t = u ++ 0x7D :: v := h
    exact absurd (ht' ▸ List.mem_append_right u List.mem_cons_self) ht
  | cons b x ih =>
    rw [escStuff, List.append_assoc] at h
    cases hb : escNeeds accm b
    case false =>
      rw [escEnc_plain hb] at h
      rcases u with - | ⟨a, u⟩
      · exact absurd (List.cons.inj h).1 (plain_ne_special hb).1
      · exact ih (List.cons.inj h).2
    case true =>
      rw [escEnc_needed hb] at h
      rcases u with - | ⟨a, - | ⟨a', u⟩⟩
      · exact ⟨b, _, hb, (List.cons.inj h).2.symm⟩
      · exact absurd (List.cons.inj (List.cons.inj h).2).1 (pairByte_ne_special hb).1
      · exact ih (List.cons.inj (List.cons.inj h).2).2

/-- The same in a written frame, whose flags are no `7D`. -/
theorem txWrite_escape_starts_pair {accm : BitVec 32} {protocol : Half} {payload u v : List Byte}
    (h : txWrite accm protocol payload = u ++ 0x7D :: v) :
    ∃ b v', escNeeds accm b = true ∧ v = (b ^^^ 0x20) :: v' := by
  rw [txWrite_eq] at h
  rcases u with - | ⟨a, u⟩
  · exact absurd (List.cons.inj h).1 (by decide)
  · exact escape_starts_pair (by decide) (List.cons.inj h).2

theorem ge_of_mem_txWrite_allOnes {protocol : Half} {payload : List Byte} {c : Byte}
    (h : c ∈ txWrite 0xFFFFFFFF protocol payload) : 0x20 ≤ c.toNat := by
  rw [txWrite_eq, List.mem_cons, List.mem_append, List.mem_singleton, mem_escStuff] at h
  rcases h with rfl | ⟨b, -, hb⟩ | rfl
  · decide
  · exact ge_of_mem_escEnc_allOnes hb
  · decide

/-- Settles O21: what stands between the flags is the stuffed content. -/
theorem txWriteShape : Obligations.TxWriteShape := by
  refine fun accm protocol payload => ⟨_, txWrite_eq accm protocol payload,
    flag_notMem_escStuff accm _, fun u v h => ?_, fun hmap b hb => ?_⟩
  · obtain ⟨b, v', hb, hv⟩ := txWrite_escape_starts_pair h
    exact ⟨b ^^^ 0x20, v', hv, pairByte_of_needed hb⟩
  · rw [hmap] at hb
    exact ge_of_mem_txWrite_allOnes hb

theorem txWrite_length (accm : BitVec 32) (protocol : Half) (payload : List Byte) :
    (txWrite accm protocol payload).length =
      (escStuff accm (frameContent protocol payload)).length + 2 := by
  rw [txWrite_eq, List.length_cons, List.length_append, List.length_singleton]

/-- The Control field stands in every content. -/
theorem ctrl_mem_frameContent (protocol : Half) (payload : List Byte) :
    (0x03 : Byte) ∈ frameContent protocol payload :=
  List.mem_cons_of_mem _ List.mem_cons_self

/-- Settles O22: the content has `n + 6` bytes, and under the all-ones map its Control field is
escaped. -/
theorem txWriteLengthBounds : Obligations.TxWriteLengthBounds := by
  intro accm protocol payload
  obtain ⟨hlow, hhigh⟩ := escStuff_length accm (frameContent protocol payload)
  rw [frameContent_length] at hlow hhigh
  rw [txWrite_length]
  refine ⟨by omega, by omega, fun hmap => ?_⟩
  have hctrl : escNeeds accm 0x03 = true := by rw [hmap]; decide
  have hlt := length_lt_escStuff_length (ctrl_mem_frameContent protocol payload) hctrl
  rw [frameContent_length] at hlt
  omega

/-! ### Back from the wire (R111) -/

/-- The loop of R137 on a stuffed sequence gives what it stands for. -/
theorem unstuff_of_unstuffs {x out : List Byte} (h : Unstuffs x out) : unstuff x = out := by
  induction h with
  | nil => rfl
  | pair c h ih => rw [← ih]; rfl
  | @plain b x out hesc hflag h ih =>
    rw [← ih]
    cases x with
    | nil => rfl
    | cons c x => exact if_neg hesc

theorem exec_escUnstuff_of_unstuffs {x out : List Byte} (h : Unstuffs x out) (s : State) :
    exec (.escUnstuff x) s = .next (s.emit (.bytes out)) := by
  rw [exec, execEscUnstuff, if_pos (unstuffOk_of_unstuffs h), unstuff_of_unstuffs h]
  rfl

/-- Settles O23: a stuffed sequence stands for what was stuffed (`escStuff_unstuffs`). -/
theorem unstuffInvertsStuff : Obligations.UnstuffInvertsStuff := by
  intro s x r h
  injection result_of_next_emit h with hr
  rw [← hr]
  exact exec_escUnstuff_of_unstuffs (escStuff_unstuffs s.txAccm x) s

end Sys2Proof.Machine
end

section
/-! PROOFS of the family 42_frame_reader.md, first part: the twelve rows (R120 to R135, R139), which
pushes deliver, overflow or count (R120, R14, R240), and the pure operations `PPP.DECODE` and
`ESC.UNSTUFF` (R136, R137). -/

namespace Sys2Proof.Machine

/-! ### The rows of the reader's table -/

/-- Settles O24: `exec_decodeWireByte` and `transition_selected_or_refused`; a line byte decodes to
the row of the present state. -/
theorem pushRunsTheSelectedRow : Obligations.PushRunsTheSelectedRow := by
  refine ⟨fun s b => (exec_decodeWireByte b s).symm, transition_selected_or_refused,
    fun s b rest => ?_⟩
  rw [step_of_fetch_ok (i := decodeWireByte s.rxState b) rfl rfl,
    step_of_fetch_ok (i := .rxPush b) rfl rfl]
  exact exec_decodeWireByte b { s with pending := rest }

/-- The statements name a row and `RX.PUSH` of its byte side by side. -/
theorem pushesByte_of_mem {i row : Instr} {st : RxState} {b : Byte}
    (hi : i ∈ [row, .rxPush b]) (hrow : row = decodeWireByte st b) : PushesByte i st b := by
  rcases List.mem_pair.1 hi with rfl | rfl
  · exact .inr hrow
  · exact .inl rfl

/-- The DATA row of a state is the one its byte selects. -/
theorem dataRow_eq_decodeWireByte (st : RxState) {b : Byte} (hflag : b ≠ 0x7E) (hesc : b ≠ 0x7D) :
    dataRow st b = decodeWireByte st b :=
  (decodeWireByte_data st (classify_data hflag hesc)).symm

theorem exec_moves {i : Instr} {s : State} {b : Byte} {st st' : RxState} (hst : s.rxState = st)
    (hi : PushesByte i st b) (hm : moveTarget st (classify b) = some st') :
    ∃ t, exec i s = .next t ∧ Moved s t st' := by
  subst hst
  rw [exec_of_pushesByte hi]
  exact exec_rxPush_moves hm

/-- A row that stores `v` (R134): there is room, or the buffer is full. -/
def StoresOrOverflows (i : Instr) (s : State) (v : Byte) : Prop :=
  (s.rxLen < s.cfg.rxCap → ∃ t, exec i s = .next t ∧ Appended s v t) ∧
  (s.rxLen = s.cfg.rxCap → ∃ t, exec i s = .next t ∧ Overflowed s t)

/-- In `FrameStart` and `InFrame` a byte that is no flag and no escape is stored as it is (R127,
R130). -/
theorem storesOrOverflows_data {i : Instr} {s : State} {b : Byte}
    (hst : s.rxState = .frameStart ∨ s.rxState = .inFrame) (hflag : b ≠ 0x7E) (hesc : b ≠ 0x7D)
    (hi : PushesByte i s.rxState b) : StoresOrOverflows i s b := by
  have hm : moveTarget s.rxState (classify b) = none := by
    rw [classify_data hflag hesc]; rcases hst with h | h <;> rw [h] <;> rfl
  have hv : appendedByte s.rxState b = b := by rcases hst with h | h <;> rw [h] <;> rfl
  have hf : ¬ (s.rxState = .inFrame ∧ b = 0x7E) := fun h => hflag h.2
  rw [StoresOrOverflows, exec_of_pushesByte hi]
  refine ⟨fun hlt => ?_, exec_rxPush_overflows hm hf⟩
  have happ := exec_rxPush_appends hm hf hlt
  rwa [hv] at happ

/-- In `InFrameEscape` any byte is stored with bit 5 inverted (R131 to R133). -/
theorem storesOrOverflows_escaped {i : Instr} {s : State} {b : Byte}
    (hst : s.rxState = .inFrameEscape) (hi : PushesByte i .inFrameEscape b) :
    StoresOrOverflows i s (b ^^^ 0x20) := by
  rw [StoresOrOverflows, exec_of_pushesByte (hst ▸ hi)]
  exact exec_rxPush_in_escape hst b

/-- Settles O25: all three transitions of `Idle` are moves. -/
theorem idleRows : Obligations.IdleRows := by
  refine fun s hst => ⟨fun i hi => exec_moves hst (pushesByte_of_mem hi rfl) rfl,
    fun i hi => exec_moves hst (pushesByte_of_mem hi rfl) rfl, fun b hflag hesc i hi => ?_⟩
  have hrow := dataRow_eq_decodeWireByte .idle hflag hesc
  exact exec_moves hst (pushesByte_of_mem hi hrow) (by rw [classify_data hflag hesc]; rfl)

/-- Settles O26: a flag and an escape move the reader, any other byte is stored as it is. -/
theorem frameStartRows : Obligations.FrameStartRows := by
  refine fun s hst => ⟨fun i hi => exec_moves hst (pushesByte_of_mem hi rfl) rfl,
    fun i hi => exec_moves hst (pushesByte_of_mem hi rfl) rfl, fun b hflag hesc i hi => ?_⟩
  have hrow := dataRow_eq_decodeWireByte .frameStart hflag hesc
  exact storesOrOverflows_data (.inl hst) hflag hesc (hst ▸ pushesByte_of_mem hi hrow)

/-- Settles O27: an escape moves the reader, any byte but the specials is stored as it is. -/
theorem inFrameStoringRows : Obligations.InFrameStoringRows := by
  refine fun s hst => ⟨fun i hi => exec_moves hst (pushesByte_of_mem hi rfl) rfl,
    fun b hflag hesc i hi => ?_⟩
  have hrow := dataRow_eq_decodeWireByte .inFrame hflag hesc
  exact storesOrOverflows_data (.inr hst) hflag hesc (hst ▸ pushesByte_of_mem hi hrow)

/-- Settles O28: `5E` and `5D` are the flag and the escape with bit 5 inverted. -/
theorem inFrameEscapeRows : Obligations.InFrameEscapeRows := by
  refine fun s hst => ⟨fun iv hiv => ?_, fun b hflag hesc i hi => ?_⟩
  · simp only [List.mem_cons, List.not_mem_nil, or_false] at hiv
    rcases hiv with rfl | rfl | rfl | rfl
    · exact storesOrOverflows_escaped (b := 0x7E) hst (.inr rfl)
    · exact storesOrOverflows_escaped (b := 0x7E) hst (.inl rfl)
    · exact storesOrOverflows_escaped (b := 0x7D) hst (.inr rfl)
    · exact storesOrOverflows_escaped (b := 0x7D) hst (.inl rfl)
  · have hrow := dataRow_eq_decodeWireByte .inFrameEscape hflag hesc
    exact storesOrOverflows_escaped hst (pushesByte_of_mem hi hrow)

/-! ### The end of a frame (R135) -/

theorem completeContent_short {c : List Byte} (hlen : c.length < 4) (s : State) :
    completeContent c s = (s.frameDone, .none) := if_pos hlen

theorem completeContent_mismatch {c : List Byte} (hlen : 4 ≤ c.length)
    (hfcs : fcsRun 0xFFFF c ≠ 0xF0B8) (s : State) :
    completeContent c s = (s.raise .fcsMismatch, .none) :=
  (if_neg (Nat.not_lt.2 hlen)).trans (if_neg (mt beq_iff_eq.1 hfcs))

/-- With a good length and residue the header decides (R136). -/
theorem completeContent_good {c : List Byte} (hlen : 4 ≤ c.length)
    (hfcs : fcsRun 0xFFFF c = 0xF0B8) (s : State) :
    completeContent c s =
      (s.frameDone, ((pppDecode (c.take (c.length - 2))).map Event.frame).getD .none) := by
  refine ((if_neg (Nat.not_lt.2 hlen)).trans (if_pos (beq_iff_eq.2 hfcs))).trans ?_
  cases pppDecode (c.take (c.length - 2)) <;> rfl

theorem exec_closing_flag {i : Instr} {s : State} (hst : s.rxState = .inFrame)
    (hle : s.rxLen ≤ s.cfg.rxCap) (hi : PushesByte i .inFrame 0x7E) :
    exec i s = deliver (.next (completeContent s.content s)) := by
  rw [exec_of_pushesByte (hst ▸ hi), exec_rxPush, pushByte_closing_flag hst hle]

theorem deliver_frameDone (s : State) (e : Event) :
    ∃ t, deliver (.next (s.frameDone, e)) = .next t ∧ FrameEnded s t s.fcsErrCnt e :=
  ⟨_, rfl, rfl, rfl, rfl, ⟨rfl, rfl, rfl⟩, rfl⟩

/-- Settles O29: the closing flag runs `completeContent` on the content. -/
theorem inFrameFlagCompletes : Obligations.InFrameFlagCompletes := by
  intro s hst hle i hi
  rw [exec_closing_flag hst hle (pushesByte_of_mem hi rfl), ← State.content_length]
  refine ⟨fun hlen => ?_, fun hlen hfcs => ?_, fun hlen hfcs hhead => ?_,
    fun f hlen hfcs hhead => ?_⟩
  · rw [completeContent_short hlen]
    exact deliver_frameDone s .none
  · rw [completeContent_mismatch hlen hfcs]
    exact ⟨_, rfl, rfl, rfl, rfl, ⟨rfl, rfl, rfl⟩, rfl⟩
  · rw [completeContent_good hlen hfcs, hhead]
    exact deliver_frameDone s .none
  · rw [completeContent_good hlen hfcs, hhead]
    exact deliver_frameDone s (.frame f)

/-! ### Which pushes deliver, overflow or count (R120, R14, R240) -/

/-- A flag or an escape is stored in `InFrameEscape` alone, and in `Idle` nothing is. -/
theorem state_of_append {s : State} {b : Byte} (hm : moveTarget s.rxState (classify b) = none)
    (hf : ¬ (s.rxState = .inFrame ∧ b = 0x7E)) :
    s.rxState ≠ .idle ∧ (b = 0x7E ∨ b = 0x7D → s.rxState = .inFrameEscape) := by
  cases hst : s.rxState <;> rw [hst] at hm hf
  case idle => cases hc : classify b <;> rw [hc] at hm <;> cases hm
  case frameStart => exact ⟨nofun, by rintro (rfl | rfl) <;> cases hm⟩
  case inFrame => exact ⟨nofun, by rintro (rfl | rfl); exacts [absurd ⟨rfl, rfl⟩ hf, nomatch hm]⟩
  case inFrameEscape => exact ⟨nofun, fun _ => rfl⟩

/-- An event of a frame's end is `None` or the frame, and a count goes with a bad residue. -/
theorem completeContent_event (c : List Byte) (s : State) :
    (completeContent c s).2 ≠ .frameTooLong ∧
    ((completeContent c s).1.fcsErrCnt = s.fcsErrCnt ∨
      (completeContent c s).1.fcsErrCnt = s.fcsErrCnt + 1 ∧ (completeContent c s).2 = .none ∧
        4 ≤ c.length ∧ fcsRun 0xFFFF c ≠ 0xF0B8) := by
  rcases completeContent_cases c s with ⟨-, h⟩ | ⟨hlen, hfcs, h⟩ | ⟨-, -, -, h⟩ |
    ⟨f, -, -, -, h⟩ <;> rw [h]
  · exact ⟨nofun, .inl rfl⟩
  · exact ⟨nofun, .inr ⟨rfl, rfl, hlen, hfcs⟩⟩
  · exact ⟨nofun, .inl rfl⟩
  · exact ⟨nofun, .inl rfl⟩

/-- Settles O30: by the four kinds of push (`pushByte_cases`). -/
theorem pushEventsAndCounter : Obligations.PushEventsAndCounter := by
  intro s t b e h hres
  obtain ⟨u, e', hp, rfl⟩ := deliver_next h
  obtain ⟨-, hresults, -⟩ := pushByte_frame hp
  obtain rfl : e = e' := by simpa [hresults] using hres.symm
  rw [State.emit_rxState, State.emit_rxLen, State.emit_fcsErrCnt]
  rcases pushByte_cases hp with ⟨st, -, rfl, rfl⟩ | ⟨hst, hb, -, hc⟩ | ⟨-, -, -, rfl, rfl⟩ |
    ⟨hm, hf, hfull, rfl, rfl⟩
  · exact ⟨nofun, nofun, fun hcnt => absurd rfl hcnt⟩
  · obtain ⟨hlong, hcnt⟩ := completeContent_event s.content s
    rw [← hc, State.content_length] at hcnt
    rw [← hc] at hlong
    refine ⟨fun _ _ => ⟨hst, hb⟩, fun he => absurd he hlong, fun hne => ?_⟩
    rcases hcnt with heq | ⟨hsucc, he, hlen, hfcs⟩
    · exact absurd heq hne
    · exact ⟨hsucc, he, hst, hb, hlen, hfcs⟩
  · exact ⟨nofun, nofun, fun hcnt => absurd rfl hcnt⟩
  · obtain ⟨hidle, hspecial⟩ := state_of_append hm hf
    exact ⟨nofun, fun _ => ⟨hfull, hidle, rfl, rfl, hspecial⟩, fun hcnt => absurd rfl hcnt⟩

/-! ### PPP.DECODE (R136) -/

/-- Settles O34: the equations of `pppDecode` and `decodeProtocol` by the first bytes. -/
theorem pppDecodeForms : Obligations.PppDecodeForms := by
  intro s
  refine ⟨rfl, rfl, fun c x hc => exec_pppDecode_of_none (pppDecode_control hc x) s, rfl,
    fun p x hp => exec_pppDecode_of_some ((pppDecode_full _).trans (decodeProtocol_odd hp x)) s,
    fun p hp => exec_pppDecode_of_none ((pppDecode_full _).trans (decodeProtocol_even_alone hp)) s,
    fun p q x hp => ?_, fun p x hne hp => ?_,
    fun p x hp => exec_pppDecode_of_none (pppDecode_even hp x) s⟩
  · rw [← be16_eq]
    exact exec_pppDecode_of_some ((pppDecode_full _).trans (decodeProtocol_even hp q x)) s
  · exact exec_pppDecode_of_some ((pppDecode_compressed hne hp x).trans (decodeProtocol_odd hp x)) s

/-! ### ESC.UNSTUFF (R137) -/

/-- What the precondition of R137 admits is a stuffed sequence. -/
theorem unstuffs_unstuff : {x : List Byte} → unstuffOk x = true → Unstuffs x (unstuff x)
  | [], _ => .nil
  | [b], h => by
    obtain ⟨hesc, hflag⟩ := Bool.and_eq_true_iff.1 h
    exact .plain b (bne_iff_ne.1 hesc) (bne_iff_ne.1 hflag) .nil
  | b :: c :: x, h => by
    by_cases hesc : b = 0x7D
    · subst hesc
      exact .pair c (unstuffs_unstuff (x := x) h)
    · have hok : (b != Config.flag && unstuffOk (c :: x)) = true := (if_neg hesc).symm.trans h
      obtain ⟨hflag, hrest⟩ := Bool.and_eq_true_iff.1 hok
      have hout : unstuff (b :: c :: x) = b :: unstuff (c :: x) := if_neg hesc
      rw [hout]
      exact .plain b hesc (bne_iff_ne.1 hflag) (unstuffs_unstuff hrest)

/-- Settles O37: the precondition of `ESC.UNSTUFF` is met by the stuffed sequences alone. -/
theorem unstuffResultAndRefusal : Obligations.UnstuffResultAndRefusal :=
  ⟨fun s _ _ h => exec_escUnstuff_of_unstuffs h s,
    fun _ x h => if_neg fun hok => h (unstuff x) (unstuffs_unstuff hok)⟩

end Sys2Proof.Machine
end

section
/-! PROOFS of the family 42_frame_reader.md, second part: byte streams. After a flag the reader
stores what a stuffed sequence stands for (R137), so it delivers what the writer sends (R140) and
reports a frame that is too long once (R134); in `Idle` it waits for a flag (R141); `RX.FEED` is
`RX.FEEDALL` cut at its first event (R138). -/

namespace Sys2Proof.Machine

/-! ### Storing many bytes -/

/-- The state after the bytes `out` were stored one after the other. -/
def State.storedAll (s : State) (out : List Byte) : State := out.foldl State.stored s

theorem State.storedAll_cons (s : State) (v : Byte) (out : List Byte) :
    s.storedAll (v :: out) = (s.stored v).storedAll out := rfl

theorem State.storedAll_content (s : State) (out : List Byte) :
    (s.storedAll out).content = s.content ++ out := by
  induction out generalizing s with
  | nil => exact (List.append_nil _).symm
  | cons v out ih => rw [storedAll_cons, ih, content_stored, List.append_assoc]; rfl

theorem State.storedAll_rxLen (s : State) (out : List Byte) :
    (s.storedAll out).rxLen = s.rxLen + out.length := by
  rw [← content_length, storedAll_content, List.length_append, content_length]

theorem State.storedAll_fcsErrCnt (s : State) (out : List Byte) :
    (s.storedAll out).fcsErrCnt = s.fcsErrCnt := by
  induction out generalizing s with
  | nil => rfl
  | cons v out ih => exact ih (s.stored v)

theorem sameRest_stored (s : State) (v : Byte) : SameRest s (s.stored v) := ⟨rfl, rfl, rfl⟩

theorem sameRest_storedAll (s : State) (out : List Byte) : SameRest s (s.storedAll out) := by
  induction out generalizing s with
  | nil => exact .refl s
  | cons v out ih => exact (sameRest_stored s v).trans (ih (s.stored v))

/-- The next byte on the wire is one of a frame's content, plain or the escape of a pair. -/
def State.AtContent (s : State) : Prop := s.rxState = .frameStart ∨ s.rxState = .inFrame

theorem State.storedAll_rxState (s : State) {out : List Byte} (h : out ≠ []) :
    (s.storedAll out).rxState = .inFrame := by
  induction out generalizing s with
  | nil => exact absurd rfl h
  | cons v out ih =>
    rcases out with - | ⟨w, out⟩
    · rfl
    · exact ih (s.stored v) (List.cons_ne_nil w out)

theorem State.AtContent.storedAll {s : State} (h : s.AtContent) (out : List Byte) :
    (s.storedAll out).AtContent := by
  rcases out with - | ⟨v, out⟩
  · exact h
  · exact .inr (s.storedAll_rxState (List.cons_ne_nil v out))

/-! ### One byte of a frame's content on the wire -/

/-- `Append` does not depend on the reader's state (R134). -/
theorem appendByte_setRxState (v : Byte) (s : State) (st : RxState) :
    appendByte v { s with rxState := st } = appendByte v s := by
  rcases lt_trichotomy s.rxLen s.cfg.rxCap with hl | hl | hl
  · rw [appendByte_of_lt v hl]; exact appendByte_of_lt v hl
  · rw [appendByte_of_eq v hl]; exact appendByte_of_eq v hl
  · rw [appendByte_of_gt v hl]; exact appendByte_of_gt v hl

theorem pushByte_plain {s : State} (h : s.AtContent) {b : Byte} (hesc : b ≠ 0x7D)
    (hflag : b ≠ 0x7E) : pushByte b s = appendByte b s := by
  have hc := classify_data hflag hesc
  rcases h with h | h <;> rw [pushByte, h, hc] <;> rfl

theorem pushByte_esc {s : State} (h : s.AtContent) :
    pushByte 0x7D s = .next ({ s with rxState := .inFrameEscape }, .none) :=
  pushByte_of_move (by rcases h with h | h <;> rw [h] <;> rfl)

theorem pushByte_escaped (s : State) (c : Byte) :
    pushByte c { s with rxState := .inFrameEscape } = appendByte (c ^^^ 0x20) s :=
  (pushByte_of_append (s := { s with rxState := .inFrameEscape }) rfl fun h => nomatch h.1).trans
    (appendByte_setRxState _ s _)

/-- The events a single push adds to a stream's (R138). -/
def reported (e : Event) : List Event := if e = .none then [] else [e]

theorem reported_length (e : Event) : (reported e).length ≤ 1 := by
  unfold reported
  split
  · exact Nat.zero_le 1
  · exact Nat.le_refl 1

theorem rxFeedAll_singleton {b : Byte} {s t : State} {e : Event} (h : pushByte b s = .next (t, e)) :
    rxFeedAll [b] s = .next (t, reported e) := by
  by_cases he : e = .none
  · subst he
    exact rxFeedAll_cons_none h
  · rw [rxFeedAll_cons_event h he rfl, reported, if_neg he]

/-- One plain byte or one pair is `Append` of the byte it stands for. -/
theorem rxFeedAll_symbol {s t : State} {y : List Byte} {v : Byte} {e : Event} (hs : s.AtContent)
    (hy : Unstuffs y [v]) (h : appendByte v s = .next (t, e)) :
    rxFeedAll y s = .next (t, reported e) := by
  cases hy with
  | pair c hnil =>
    cases hnil
    rw [rxFeedAll_cons_none (pushByte_esc hs)]
    exact rxFeedAll_singleton ((pushByte_escaped s c).trans h)
  | plain _ hesc hflag hnil =>
    cases hnil
    exact rxFeedAll_singleton ((pushByte_plain hs hesc hflag).trans h)

/-- Fed where content is expected and with room for it, `x` is stored as `out`, without an event. -/
def StoredAs (x out : List Byte) : Prop :=
  ∀ s : State, s.AtContent → s.rxLen + out.length ≤ s.cfg.rxCap →
    rxFeedAll x s = .next (s.storedAll out, [])

/-- One plain byte or one pair in front: it is stored, and the reader is in `InFrame`. -/
theorem StoredAs.cons {x y out : List Byte} {v : Byte} (hy : Unstuffs y [v]) (h : StoredAs x out) :
    StoredAs (y ++ x) (v :: out) := by
  intro s hs hroom
  rw [List.length_cons] at hroom
  have first := rxFeedAll_symbol hs hy (appendByte_of_lt v (by omega))
  exact rxFeedAll_append first
    (h (s.stored v) (.inr rfl) (by rw [State.stored_rxLen, State.stored_cfg]; omega))

/-- R137's last part: a stuffed sequence is stored as what it stands for. -/
theorem storedAs_of_unstuffs {x out : List Byte} (h : Unstuffs x out) : StoredAs x out := by
  induction h with
  | nil => exact fun _ _ _ => rfl
  | pair c _ ih => exact .cons (.pair c .nil) ih
  | plain b hesc hflag _ ih => exact .cons (.plain b hesc hflag .nil) ih

/-! ### From an opening flag -/

/-- The reader after a flag that opened the frame search, or kept it open (R122, R125). -/
def State.opened (s : State) : State := { s with rxState := .frameStart }

theorem pushByte_opening_flag {s : State} (h : s.rxState = .idle ∨ s.rxState = .frameStart) :
    pushByte 0x7E s = .next (s.opened, .none) :=
  pushByte_of_move (by rcases h with h | h <;> rw [h] <;> rfl)

@[simp] theorem State.opened_rxLen (s : State) : s.opened.rxLen = s.rxLen := rfl
@[simp] theorem State.opened_cfg (s : State) : s.opened.cfg = s.cfg := rfl

theorem sameRest_opened (s : State) : SameRest s s.opened := ⟨rfl, rfl, rfl⟩

theorem State.content_of_rxLen {s : State} (h : s.rxLen = 0) : s.content = [] := by
  rw [← List.length_eq_zero_iff, content_length, h]

/-- Settles O38: the flag opens the frame and `storedAs_of_unstuffs` stores the content. -/
theorem readerComputesUnstuff : Obligations.ReaderComputesUnstuff := by
  intro s x out hst hlen hx hcap
  have hroom : s.opened.rxLen + out.length ≤ s.opened.cfg.rxCap := by
    rw [State.opened_rxLen, State.opened_cfg]; omega
  refine ⟨s.opened.storedAll out, ?_, ?_, s.opened.storedAll_fcsErrCnt out,
    (sameRest_opened s).trans (sameRest_storedAll s.opened out)⟩
  · rw [rxFeedAll_cons_none (pushByte_opening_flag hst)]
    exact storedAs_of_unstuffs hx s.opened (.inl rfl) hroom
  · rw [State.storedAll_content, State.content_of_rxLen (s := s.opened) hlen, List.nil_append]

/-! ### A written frame (R140) -/

/-- What the reader makes of the writer's frame: the Protocol and the payload, or, when the high
byte of the Protocol is odd and so a Protocol field of its own, the split of 90 C1. -/
def deliveredFrame (p : Half) (x : List Byte) : Frame :=
  { address := 0xFF, control := 0x03, protocol := (if p.getLsbD 8 then p >>> 8 else p),
    body := (if p.getLsbD 8 then p.extractLsb' 0 8 :: x else x) }

theorem lowBit_hi8 (p : Half) : lowBit (hi8 p) = p.getLsbD 8 := by
  simp [lowBit, hi8]

theorem pppDecode_pppEncode (p : Half) (x : List Byte) :
    pppDecode (pppEncode p x) = some (deliveredFrame p x) := by
  have hbit := lowBit_hi8 p
  have hfull : pppDecode (pppEncode p x) = decodeProtocol (hi8 p :: lo8 p :: x) := pppDecode_full _
  rw [hfull, deliveredFrame]
  cases hp : p.getLsbD 8
  case false => rw [decodeProtocol_even (hbit.trans hp), be16_hi8_lo8]; rfl
  case true => rw [decodeProtocol_odd (hbit.trans hp), ← shift8]; rfl

/-- The content of a written frame passes the three checks. -/
theorem completeContent_frameContent (p : Half) (x : List Byte) (s : State) :
    completeContent (frameContent p x) s = (s.frameDone, .frame (deliveredFrame p x)) := by
  have hlen : 4 ≤ (frameContent p x).length := by rw [frameContent_length]; omega
  have hfcs : fcsRun 0xFFFF (frameContent p x) = 0xF0B8 :=
    fcsResidueOfEveryContent (pppEncode p x) _ _ _ rfl
  rw [completeContent_good hlen hfcs, frameContent_take, pppDecode_pppEncode]
  rfl

theorem frameContent_ne_nil (p : Half) (x : List Byte) : frameContent p x ≠ [] :=
  List.cons_ne_nil _ _

/-- The reader after a written frame, from the state its opening flag left. -/
def State.afterWritten (s : State) (p : Half) (x : List Byte) : State :=
  (s.storedAll (frameContent p x)).frameDone

/-- A written frame behind its opening flag is delivered by its closing flag. -/
theorem rxFeedAll_written {s : State} (hst : s.rxState = .frameStart) (hlen : s.rxLen = 0)
    (accm : BitVec 32) (p : Half) (x : List Byte) (hcap : x.length + 6 ≤ s.cfg.rxCap) :
    rxFeedAll (escStuff accm (frameContent p x) ++ [0x7E]) s =
      .next (s.afterWritten p x, [.frame (deliveredFrame p x)]) := by
  have hroom : s.rxLen + (frameContent p x).length ≤ s.cfg.rxCap := by
    rw [frameContent_length]; omega
  have hstuffed := escStuff_unstuffs accm (frameContent p x)
  have hstored := storedAs_of_unstuffs hstuffed s (.inl hst) hroom
  have hcontent : (s.storedAll (frameContent p x)).content = frameContent p x := by
    rw [State.storedAll_content, State.content_of_rxLen hlen, List.nil_append]
  have hclose := pushByte_closing_flag (s.storedAll_rxState (frameContent_ne_nil p x))
    (by rwa [State.storedAll_rxLen, (sameRest_storedAll s _).cfg])
  rw [hcontent, completeContent_frameContent] at hclose
  exact rxFeedAll_append hstored (rxFeedAll_singleton hclose)

theorem State.afterWritten_fcsErrCnt (s : State) (p : Half) (x : List Byte) :
    (s.afterWritten p x).fcsErrCnt = s.fcsErrCnt :=
  s.storedAll_fcsErrCnt (frameContent p x)

theorem sameRest_afterWritten (s : State) (p : Half) (x : List Byte) :
    SameRest s (s.afterWritten p x) :=
  (sameRest_storedAll s (frameContent p x)).trans ⟨rfl, rfl, rfl⟩

/-- Settles O39: the first flag of what `TX.WRITE` sends opens the frame, the rest is
`rxFeedAll_written`. -/
theorem writerToReaderRoundTrip : Obligations.WriterToReaderRoundTrip := by
  intro s p x hst hlen hcap
  refine ⟨s.opened.afterWritten p x, ?_, rfl, rfl, s.opened.afterWritten_fcsErrCnt p x,
    (sameRest_opened s).trans (sameRest_afterWritten s.opened p x)⟩
  rw [txWrite_eq, rxFeedAll_cons_none (pushByte_opening_flag hst)]
  exact rxFeedAll_written (s := s.opened) rfl hlen s.txAccm p x hcap

theorem deliveredFrame_even {p : Half} (h : p.getLsbD 8 = false) (x : List Byte) :
    deliveredFrame p x = { address := 0xFF, control := 0x03, protocol := p, body := x } := by
  rw [deliveredFrame, h]; rfl

/-- A flag in `InFrame` leaves the reader ready for the next frame, with at most one event or one
count (R135). -/
theorem rxFeedAll_closing_flag {s : State} (hst : s.rxState = .inFrame)
    (hle : s.rxLen ≤ s.cfg.rxCap) :
    ∃ u es, rxFeedAll [0x7E] s = .next (u, es) ∧ es.length ≤ 1 ∧ u.rxState = .frameStart ∧
      u.rxLen = 0 ∧ u.cfg = s.cfg ∧
      (u.fcsErrCnt = s.fcsErrCnt ∨ (u.fcsErrCnt = s.fcsErrCnt + 1 ∧ es = [])) := by
  obtain ⟨n, e, hends⟩ := completeContent_ends_frame s.content
  obtain ⟨-, hcnt⟩ := completeContent_event s.content s
  have hclose := pushByte_closing_flag hst hle
  rw [hends] at hclose hcnt
  refine ⟨_, reported e, rxFeedAll_singleton hclose, reported_length e, rfl, rfl, rfl, ?_⟩
  rcases hcnt with hsame | ⟨hsucc, hnone, -⟩
  · exact .inl hsame
  · exact .inr ⟨hsucc, if_pos hnone⟩

/-- Settles O40: the opening flag ends the fragment (`rxFeedAll_closing_flag`), and the frame behind
it is delivered as from any `FrameStart` (`rxFeedAll_written`). -/
theorem frameAfterFragmentIsDelivered : Obligations.FrameAfterFragmentIsDelivered := by
  intro s p x hst hle hcap heven
  obtain ⟨u, es, hclose, hes, hust, hulen, hucfg, hcnt⟩ := rxFeedAll_closing_flag hst hle
  have hwritten := rxFeedAll_written hust hulen s.txAccm p x (by rwa [hucfg])
  rw [deliveredFrame_even heven] at hwritten
  refine ⟨u.afterWritten p x, es, rxFeedAll_append hclose hwritten, hes, rfl, rfl, ?_⟩
  rwa [u.afterWritten_fcsErrCnt]

/-! ### Bytes that leave no trace (R141) -/

/-- In `Idle` a byte other than the flag changes nothing. -/
theorem pushByte_idle_discards {s : State} (hst : s.rxState = .idle) {b : Byte} (hb : b ≠ 0x7E) :
    pushByte b s = .next (s, .none) := by
  cases hc : classify b
  case flag => exact absurd (classify_eq_flag.1 hc) hb
  all_goals rw [pushByte, hst, hc]; rfl

/-- Settles O41: by induction on the garbage, each byte of which is discarded. -/
theorem garbageBeforeFlagLeavesNoTrace : Obligations.GarbageBeforeFlagLeavesNoTrace := by
  intro s g w hst hg
  induction g with
  | nil => rfl
  | cons b g ih =>
    obtain ⟨hb, hg⟩ := List.ne_and_not_mem_of_not_mem_cons hg
    exact (rxFeedAll_cons_none (pushByte_idle_discards hst (Ne.symm hb))).trans (ih hg)

/-! ### A frame that is too long (R134, R231) -/

/-- The reader after a frame that was too long and the flag that resynchronised it. -/
def State.afterOverlong (s : State) (out : List Byte) : State :=
  ((s.storedAll out).raise .frameTooLong).opened

/-- The byte that does not fit reports the frame, the rest is garbage, the flag resynchronises. -/
theorem rxFeedAll_overlong {s : State} (hs : s.AtContent) {x out y rest : List Byte} {v : Byte}
    (hx : Unstuffs x out) (hfull : s.rxLen + out.length = s.cfg.rxCap) (hy : Unstuffs y [v])
    (hrest : (0x7E : Byte) ∉ rest) :
    rxFeedAll (x ++ (y ++ (rest ++ [0x7E]))) s = .next (s.afterOverlong out, [.frameTooLong]) := by
  have hstored := storedAs_of_unstuffs hx s hs hfull.le
  have hlong := rxFeedAll_symbol (hs.storedAll out) hy (appendByte_of_eq v
    (by rw [State.storedAll_rxLen, (sameRest_storedAll s out).cfg, hfull]))
  have hresync : rxFeedAll (rest ++ [0x7E]) ((s.storedAll out).raise .frameTooLong) =
      .next (s.afterOverlong out, []) := by
    rw [garbageBeforeFlagLeavesNoTrace _ rest [0x7E] rfl hrest]
    exact rxFeedAll_singleton (pushByte_opening_flag (.inl rfl))
  exact rxFeedAll_append hstored (rxFeedAll_append hlong hresync)

theorem State.afterOverlong_fcsErrCnt (s : State) (out : List Byte) :
    (s.afterOverlong out).fcsErrCnt = s.fcsErrCnt :=
  s.storedAll_fcsErrCnt out

theorem sameRest_afterOverlong (s : State) (out : List Byte) : SameRest s (s.afterOverlong out) :=
  (sameRest_storedAll s out).trans ⟨rfl, rfl, rfl⟩

/-- A sequence longer than `n` is `n` bytes, one byte and the rest. -/
theorem exists_split_of_length_gt {l : List Byte} {n : Nat} (h : n < l.length) :
    ∃ (out : List Byte) (v : Byte) (rest : List Byte), l = out ++ ([v] ++ rest) ∧ out.length = n :=
  ⟨l.take n, l[n], l.drop (n + 1), by simp, List.length_take_of_le h.le⟩

/-- Settles O42: `rxFeedAll_overlong`; the content of a written frame splits at `RX_CAP` bytes, and
its stuffed parts hold no flag. -/
theorem overlongFrameIsReportedOnce : Obligations.OverlongFrameIsReportedOnce := by
  constructor
  · intro s x out y rest v hst hlen hx hout hy hrest
    exact ⟨s.afterOverlong out, rxFeedAll_overlong (.inl hst) hx (by omega) hy hrest, rfl, rfl,
      s.afterOverlong_fcsErrCnt out, sameRest_afterOverlong s out⟩
  · intro s p x hst hlen hlong
    rw [← frameContent_length p x] at hlong
    obtain ⟨out, v, rest, hc, hout⟩ := exists_split_of_length_gt hlong
    refine ⟨s.opened.afterOverlong out, ?_, rfl, rfl, s.opened.afterOverlong_fcsErrCnt out,
      (sameRest_opened s).trans (sameRest_afterOverlong s.opened out)⟩
    rw [txWrite_eq, rxFeedAll_cons_none (pushByte_opening_flag hst), hc, escStuff_append,
      escStuff_append, List.append_assoc, List.append_assoc]
    refine rxFeedAll_overlong (.inl rfl) (escStuff_unstuffs _ out) ?_ (escStuff_unstuffs _ [v])
      (flag_notMem_escStuff _ rest)
    rw [State.opened_rxLen, State.opened_cfg]; omega

/-! ### RX.FEED (R138) -/

/-- `RX.FEED` of a byte and more, read backwards: it stops at an event, or goes on. -/
theorem rxFeed_cons_inv {b : Byte} {x : List Byte} {s t : State} {n : Nat} {e : Event}
    (h : rxFeed (b :: x) s = .next (t, n, e)) :
    (e ≠ .none ∧ n = 1 ∧ pushByte b s = .next (t, e)) ∨
    ∃ u m, pushByte b s = .next (u, .none) ∧ rxFeed x u = .next (t, m, e) ∧ n = m + 1 := by
  simp only [rxFeed] at h
  split at h
  next u e' hp =>
    split at h
    next he =>
      subst he
      split at h
      next t' m e'' hx => cases h; exact .inr ⟨u, m, hp, hx, rfl⟩
      · cases h
      · cases h
    next he => cases h; exact .inl ⟨he, rfl, hp⟩
  · cases h
  · cases h

/-- Settles O43: by induction on the bytes; a byte without an event is passed over by both. -/
theorem feedStopsAtFirstEvent : Obligations.FeedStopsAtFirstEvent := by
  intro s t x
  induction x generalizing s with
  | nil =>
    intro n e h
    cases h
    exact ⟨Nat.le_refl 0, fun _ => ⟨rfl, rfl⟩, fun he => absurd rfl he⟩
  | cons b x ih =>
    intro n e h
    rcases rxFeed_cons_inv h with ⟨he, rfl, hp⟩ | ⟨u, m, hp, hx, rfl⟩
    · refine ⟨Nat.le_add_left 1 _, fun h => absurd h he, fun _ => ⟨Nat.le_refl 1, ?_, ?_⟩⟩
      · exact rxFeedAll_cons_event hp he rfl
      · exact fun v es hv => rxFeedAll_cons_event hp he hv
    · obtain ⟨hm, hnone, hevent⟩ := ih u m e hx
      refine ⟨Nat.succ_le_succ hm, fun he => ?_, fun he => ?_⟩
      · obtain ⟨rfl, hall⟩ := hnone he
        exact ⟨rfl, (rxFeedAll_cons_none hp).trans hall⟩
      · obtain ⟨-, htake, hdrop⟩ := hevent he
        exact ⟨Nat.le_add_left 1 m, (rxFeedAll_cons_none hp).trans htake,
          fun v es hv => (rxFeedAll_cons_none hp).trans (hdrop v es hv)⟩

end Sys2Proof.Machine
end

section
/-! PROOFS of the family 43_option_codec.md: what `OPT.NEXT` finds at the front of a list (R160), that
`OPT.PARSE` reads exactly the options laid end to end (R161), what `OPT.PUT` and `OPT.EMIT` write
(R162, R163), and that parsing and emitting undo each other (R164). -/

namespace Sys2Proof.Machine

/-- Two answers given from one state are the same when the results are. -/
theorem next_emit_inj {s : State} {r q : Result} :
    (.next (s.emit r) : Host.Outcome State Fault Refusal) = .next (s.emit q) ↔ r = q :=
  ⟨result_of_next_emit, fun h => h ▸ rfl⟩

/-! ### OPT.NEXT (R160) -/

theorem exec_optNext (x : List Byte) (s : State) :
    exec (.optNext x) s = .next (s.emit (nextResult (optNext x))) := rfl

theorem nextResult_injective : Function.Injective nextResult := by
  intro a b h
  cases a <;> cases b <;> cases h <;> rfl

/-- The answer to `OPT.NEXT` tells what was found. -/
theorem exec_optNext_iff {x : List Byte} {s : State} (n : NextOption) :
    exec (.optNext x) s = .next (s.emit (nextResult n)) ↔ optNext x = n := by
  rw [exec_optNext, next_emit_inj, nextResult_injective.eq_iff]

/-- Settles O45: the length byte counts the header and the value exactly, or there is no option. -/
theorem optNextResult : Obligations.OptNextResult := by
  refine fun s => ⟨rfl, fun t => rfl, fun t l x hbad => ?_, fun t l v rest hl => ?_⟩
  · exact (exec_optNext_iff .malformed).2 (optNext_bad hbad)
  · refine (exec_optNext_iff (.item t v rest)).2 ?_
    simp only [optNext, splitCounted_append hl]

/-! ### OPT.PARSE (R161) -/

theorem optParse_of_done {x : List Byte} (h : optNext x = .done) : optParse x = some [] := by
  rw [optParse_eq, h]

theorem optParse_of_malformed {x : List Byte} (h : optNext x = .malformed) : optParse x = none := by
  rw [optParse_eq, h]

theorem optParse_of_item {x : List Byte} {t : Byte} {v rest : List Byte}
    (h : optNext x = .item t v rest) :
    optParse x = (optParse rest).map ({ type := t, value := v } :: ·) := by
  rw [optParse_eq, h]

theorem optParse_eq_nil_iff {x : List Byte} : optParse x = some [] ↔ x = [] := by
  refine ⟨fun h => ?_, fun h => h ▸ rfl⟩
  cases hn : optNext x with
  | done => exact optNext_done_inv hn
  | malformed => rw [optParse_of_malformed hn] at h; cases h
  | item t v rest => rw [optParse_of_item hn] at h; simp at h

theorem optParse_eq_cons_iff {x : List Byte} {o : TlvOption} {os : List TlvOption} :
    optParse x = some (o :: os) ↔
      ∃ rest, optNext x = .item o.type o.value rest ∧ optParse rest = some os := by
  cases hn : optNext x with
  | done => simp [optParse_of_done hn]
  | malformed => simp [optParse_of_malformed hn]
  | item t v rest =>
    obtain ⟨t', v'⟩ := o
    simp [optParse_of_item hn, and_assoc, and_comm]

/-- An option is found exactly at the front of its own layout. -/
theorem optNext_eq_item_iff {x : List Byte} {t : Byte} {v rest : List Byte} :
    optNext x = .item t v rest ↔
      v.length ≤ 253 ∧ t :: BitVec.ofNat 8 (2 + v.length) :: (v ++ rest) = x := by
  refine ⟨fun h => ?_, fun ⟨hv, hx⟩ => hx ▸ optNext_layout hv t rest⟩
  obtain ⟨hx, hv⟩ := optNext_item_inv h
  exact ⟨hv, hx.symm⟩

@[simp] theorem valuesFit_nil : ValuesFit [] := List.forall_mem_nil _

@[simp] theorem valuesFit_cons {o : TlvOption} {os : List TlvOption} :
    ValuesFit (o :: os) ↔ o.value.length ≤ 253 ∧ ValuesFit os := List.forall_mem_cons

/-- `OPT.PARSE` reads a list of options exactly from its layout, by induction on the list. -/
theorem optParse_eq_some_iff {x : List Byte} {l : List TlvOption} :
    optParse x = some l ↔ ValuesFit l ∧ optionLayout l = x := by
  induction l generalizing x with
  | nil => rw [optParse_eq_nil_iff]; simp [optionLayout, eq_comm]
  | cons o os ih =>
    simp only [optParse_eq_cons_iff, optNext_eq_item_iff, ih, valuesFit_cons, optionLayout]
    constructor
    · rintro ⟨rest, ⟨hv, hx⟩, hos, rfl⟩
      exact ⟨⟨hv, hos⟩, hx⟩
    · rintro ⟨⟨hv, hos⟩, hx⟩
      exact ⟨optionLayout os, ⟨hv, hx⟩, hos, rfl⟩

/-- The answer of `OPT.PARSE` to what its loop reads. -/
def parseResult : Option (List TlvOption) → Result
  | some l => .optList l
  | none => .malformed

theorem exec_optParse (x : List Byte) (s : State) :
    exec (.optParse x) s = .next (s.emit (parseResult (optParse x))) := by
  rw [exec, execOptParse]
  cases optParse x <;> rfl

theorem parseResult_injective : Function.Injective parseResult := by
  intro a b h
  cases a <;> cases b <;> cases h <;> rfl

/-- The answer to `OPT.PARSE` tells what was read. -/
theorem exec_optParse_iff {x : List Byte} {s : State} (p : Option (List TlvOption)) :
    exec (.optParse x) s = .next (s.emit (parseResult p)) ↔ optParse x = p := by
  rw [exec_optParse, next_emit_inj, parseResult_injective.eq_iff]

/-- Settles O47: what parses is a layout (`optParse_eq_some_iff`), so no other sequence does. -/
theorem optParseResult : Obligations.OptParseResult := by
  refine ⟨fun s l hl => ?_, fun s x hx => ?_⟩
  · exact (exec_optParse_iff (some l)).2 (optParse_eq_some_iff.2 ⟨hl, rfl⟩)
  · refine (exec_optParse_iff none).2 (Option.eq_none_iff_forall_ne_some.2 fun l h => ?_)
    obtain ⟨hl, hlayout⟩ := optParse_eq_some_iff.1 h
    exact hx l hl hlayout

/-- Settles O48: the three equations of `optParse` by what stands at the front. -/
theorem optParseLoopsOptNext : Obligations.OptParseLoopsOptNext := by
  refine fun s x => ⟨fun h => ?_, fun h => ?_, fun t v rest h => ?_⟩
  · exact (exec_optParse_iff (some [])).2 (optParse_of_done ((exec_optNext_iff .done).1 h))
  · exact (exec_optParse_iff none).2 (optParse_of_malformed ((exec_optNext_iff .malformed).1 h))
  · have hx := optParse_of_item ((exec_optNext_iff (.item t v rest)).1 h)
    refine ⟨fun l hl => (exec_optParse_iff (some _)).2 ?_,
      fun hm => (exec_optParse_iff none).2 ?_⟩
    · rw [hx, (exec_optParse_iff (some l)).1 hl]; rfl
    · rw [hx, (exec_optParse_iff none).1 hm]; rfl

/-! ### OPT.PUT (R162) -/

theorem exec_optPut_of_long {v : List Byte} (h : 253 < v.length) (buf : List Byte) (cap : Nat)
    (t : Byte) (s : State) : exec (.optPut buf cap t v) s = .refused .optValueTooLong := if_pos h

theorem exec_optPut_of_overCap {buf v : List Byte} {cap : Nat} (hv : v.length ≤ 253)
    (hb : cap < buf.length) (t : Byte) (s : State) :
    exec (.optPut buf cap t v) s = .refused .optBufferOverCap :=
  (if_neg (Nat.not_lt.2 hv)).trans (if_pos hb)

/-- Within its operand conditions `OPT.PUT` writes the layout of one option behind the buffer, or
overflows. -/
theorem exec_optPut_of_fit {buf v : List Byte} {cap : Nat} (hv : v.length ≤ 253)
    (hb : buf.length ≤ cap) (t : Byte) (s : State) :
    exec (.optPut buf cap t v) s = .next (s.emit
      (if cap < buf.length + (2 + v.length) then .overflow
       else .optBuffer (buf ++ [t, BitVec.ofNat 8 (2 + v.length)] ++ v))) := by
  have hshort : ¬ Config.optMaxVal < v.length := Nat.not_lt.2 hv
  rw [exec, execOptPut, if_neg hshort, if_neg (Nat.not_lt.2 hb), optPut]
  by_cases hover : cap < buf.length + (2 + v.length)
  · rw [if_pos hover, if_pos hover]; rfl
  · rw [if_neg hover, if_neg hover]; rfl

theorem exec_optPut_buffer_iff {buf v : List Byte} {cap : Nat} (hv : v.length ≤ 253)
    (hb : buf.length ≤ cap) {t : Byte} {buf' : List Byte} {s : State} :
    exec (.optPut buf cap t v) s = .next (s.emit (.optBuffer buf')) ↔
      buf.length + (2 + v.length) ≤ cap ∧
        buf ++ [t, BitVec.ofNat 8 (2 + v.length)] ++ v = buf' := by
  rw [exec_optPut_of_fit hv hb, next_emit_inj]
  split
  next hover => simp [Nat.not_le.2 hover]
  next hroom => simp [Nat.not_lt.1 hroom]

theorem exec_optPut_overflow_iff {buf v : List Byte} {cap : Nat} (hv : v.length ≤ 253)
    (hb : buf.length ≤ cap) {t : Byte} {s : State} :
    exec (.optPut buf cap t v) s = .next (s.emit .overflow) ↔
      cap < buf.length + (2 + v.length) := by
  rw [exec_optPut_of_fit hv hb, next_emit_inj]
  simp

/-- Settles O49: the refusals come first, then the room is tested. -/
theorem optPutResult : Obligations.OptPutResult :=
  fun s buf v cap t =>
    ⟨fun hv hroom => (exec_optPut_buffer_iff hv (by omega)).2 ⟨hroom, rfl⟩,
      fun hv hb hover => (exec_optPut_overflow_iff hv hb).2 hover,
      fun hv => exec_optPut_of_long hv buf cap t s, fun hv hb => exec_optPut_of_overCap hv hb t s⟩

/-! ### OPT.EMIT (R163) -/

theorem exec_optEmit_of_not_fit {l : List TlvOption} (h : ¬ ValuesFit l) (cap : Nat) (s : State) :
    exec (.optEmit cap l) s = .refused .optValueTooLong := if_neg (mt (valuesFit_iff l).1 h)

/-- `OPT.EMIT` of values that fit writes the layout of the list, or overflows. -/
theorem exec_optEmit_of_fit {l : List TlvOption} (h : ValuesFit l) (cap : Nat) (s : State) :
    exec (.optEmit cap l) s = .next (s.emit
      (if (optionLayout l).length ≤ cap then .optEmitted (optionLayout l) (optionLayout l).length
       else .overflow)) := by
  rw [exec, execOptEmit, if_pos ((valuesFit_iff l).2 h), optEmit,
    optEmitLoop_eq cap l [] (Nat.zero_le cap), List.length_nil, Nat.zero_add, List.nil_append]
  by_cases hroom : (optionLayout l).length ≤ cap
  · rw [if_pos hroom, if_pos hroom]; rfl
  · rw [if_neg hroom, if_neg hroom]; rfl

/-- Settles O51: the values do not all fit. -/
theorem optEmitRefusesLongValues : Obligations.OptEmitRefusesLongValues := by
  refine fun s cap l k o ho => exec_optEmit_of_not_fit (fun hfit => ?_) cap s
  exact Nat.not_lt.2 (hfit o (List.mem_append_right l List.mem_cons_self)) ho

/-- What `OPT.EMIT` hands out is the layout of a list whose values fit and which has room. -/
theorem exec_optEmit_emitted_iff {cap n : Nat} {l : List TlvOption} {b : List Byte} {s : State} :
    exec (.optEmit cap l) s = .next (s.emit (.optEmitted b n)) ↔
      ValuesFit l ∧ (optionLayout l).length ≤ cap ∧ optionLayout l = b ∧ n = b.length := by
  by_cases hfit : ValuesFit l
  · rw [exec_optEmit_of_fit hfit, next_emit_inj]
    split
    next hroom =>
      constructor
      · rintro ⟨⟩
        exact ⟨hfit, hroom, rfl, rfl⟩
      · rintro ⟨-, -, rfl, rfl⟩
        rfl
    next hover => simp [hover]
  · simp [exec_optEmit_of_not_fit hfit, hfit]

theorem exec_optEmit_overflow_iff {cap : Nat} {l : List TlvOption} {s : State} :
    exec (.optEmit cap l) s = .next (s.emit .overflow) ↔
      ValuesFit l ∧ cap < (optionLayout l).length := by
  by_cases hfit : ValuesFit l
  · rw [exec_optEmit_of_fit hfit, next_emit_inj]
    simp [hfit]
  · simp [exec_optEmit_of_not_fit hfit, hfit]

/-- Settles O50: with room and without. -/
theorem optEmitResult : Obligations.OptEmitResult :=
  fun _ _ _ hl => ⟨fun hroom => exec_optEmit_emitted_iff.2 ⟨hl, hroom, rfl, rfl⟩,
    fun hover => exec_optEmit_overflow_iff.2 ⟨hl, hover⟩⟩

/-! ### OPT.EMIT option by option -/

/-- The layout of a list with one option more. -/
theorem optionLayout_concat (l : List TlvOption) (o : TlvOption) :
    optionLayout (l ++ [o]) =
      optionLayout l ++ [o.type, BitVec.ofNat 8 (2 + o.value.length)] ++ o.value := by
  induction l with
  | nil => simp [optionLayout]
  | cons p ps ih => simp [optionLayout, ih]

theorem optionLayout_concat_length (l : List TlvOption) (o : TlvOption) :
    (optionLayout (l ++ [o])).length = (optionLayout l).length + (2 + o.value.length) := by
  rw [optionLayout_concat]
  simp only [List.length_append, List.length_cons, List.length_nil]
  omega

theorem valuesFit_concat {l : List TlvOption} {o : TlvOption} (hl : ValuesFit l)
    (ho : o.value.length ≤ 253) : ValuesFit (l ++ [o]) :=
  List.forall_mem_append.2 ⟨hl, List.forall_mem_singleton.2 ho⟩

/-- Settles O52: the layout of the longer list is what `OPT.PUT` writes behind the layout emitted so
far (`optionLayout_concat`), and no list overflows that has more room than a longer one. -/
theorem optEmitLoopsOptPut : Obligations.OptEmitLoopsOptPut := by
  refine fun s cap l o buf n => ⟨rfl, fun h ho => ?_, fun h ho => ?_⟩
  · obtain ⟨hl, hcap, rfl, -⟩ := exec_optEmit_emitted_iff.1 h
    refine ⟨fun buf' hput => exec_optEmit_emitted_iff.2 ?_,
      fun hput => exec_optEmit_overflow_iff.2 ?_⟩
    · obtain ⟨hroom, hbuf⟩ := (exec_optPut_buffer_iff ho hcap).1 hput
      exact ⟨valuesFit_concat hl ho, (optionLayout_concat_length l o).trans_le hroom,
        (optionLayout_concat l o).trans hbuf, rfl⟩
    · exact ⟨valuesFit_concat hl ho,
        ((exec_optPut_overflow_iff ho hcap).1 hput).trans_eq (optionLayout_concat_length l o).symm⟩
  · obtain ⟨hl, hover⟩ := exec_optEmit_overflow_iff.1 h
    refine exec_optEmit_overflow_iff.2 ⟨valuesFit_concat hl ho, ?_⟩
    rw [optionLayout_concat_length]; omega

/-! ### Round trips (R164) -/

/-- Settles O53: both operations relate a list with values that fit to its layout, one by
`optParse_eq_some_iff` and the other by `exec_optEmit_emitted_iff`. -/
theorem optionCodecRoundTrip : Obligations.OptionCodecRoundTrip := by
  refine ⟨fun s cap l b n h => ?_, fun s x l h => ?_⟩
  · obtain ⟨hl, -, hb, hn⟩ := exec_optEmit_emitted_iff.1 h
    exact ⟨hn, (exec_optParse_iff (some l)).2 (optParse_eq_some_iff.2 ⟨hl, hb⟩)⟩
  · obtain ⟨hl, hx⟩ := optParse_eq_some_iff.1 ((exec_optParse_iff (some l)).1 h)
    exact exec_optEmit_emitted_iff.2 ⟨hl, hx ▸ Nat.le_refl _, hx, rfl⟩

end Sys2Proof.Machine
end

section
/-! PROOFS of the family 60_exceptions.md: from a state that meets the invariant nothing faults (R36,
R243), since a push faults only with `rx_len` beyond `RX_CAP` and no other instruction reaches `rx_buf`
but through pushes. -/

namespace Sys2Proof.Machine

/-- A pure instruction reads and writes nothing of `rx_buf` (R7). -/
theorem exec_pure_ne_fault {i : Instr} (hpure : i.isPure = true) (s : State) (f : Fault) :
    exec i s ≠ .fault f := by
  rcases pureInstructionsDependOnOperandsAlone i s s hpure rfl with ⟨r, hr, -⟩ | ⟨q, hq, -⟩
  · rw [hr]; exact nofun
  · rw [hq]; exact nofun

theorem exec_rxPush_ne_fault {s : State} (hinv : s.Inv) (b : Byte) (f : Fault) :
    exec (.rxPush b) s ≠ .fault f := by
  intro h
  obtain ⟨hbeyond, -⟩ := readerFaultsOnlyOutsideTheBuffer s b f h
  exact Nat.not_lt.2 hinv.lenCap hbeyond

theorem exec_transition_ne_fault {s : State} (hinv : s.Inv) {i : Instr}
    (hi : i.isTransition = true) (f : Fault) : exec i s ≠ .fault f := by
  rcases transition_selected_or_refused s i hi with ⟨b, rfl⟩ | hr
  · rw [exec_decodeWireByte]
    exact exec_rxPush_ne_fault hinv b f
  · rw [hr]; exact nofun

/-- The first push of the pair keeps the invariant, so the second cannot fault either. -/
theorem exec_escapePair_ne_fault {s : State} (hinv : s.Inv) (b : Byte) (f : Fault) :
    exec (.escapePair b) s ≠ .fault f := by
  cases hesc : exec (.rxPush 0x7D) s with
  | next u =>
    rw [exec_escapePair_of_next hesc]
    exact exec_rxPush_ne_fault (exec_rxPush_keeps_inv hinv hesc) b f
  | fault g => exact absurd hesc (exec_rxPush_ne_fault hinv 0x7D g)
  | refused r => exact absurd hesc (exec_rxPush_ne_refused 0x7D s r)

theorem exec_ne_fault {s : State} (hinv : s.Inv) (i : Instr) (f : Fault) : exec i s ≠ .fault f := by
  rcases instr_kinds i with hi | hi | ⟨b, rfl⟩ | ⟨b, rfl⟩
  · exact exec_pure_ne_fault hi s f
  · exact exec_transition_ne_fault hinv hi f
  · exact exec_rxPush_ne_fault hinv b f
  · exact exec_escapePair_ne_fault hinv b f

/-- Waiting and refusing bytes fault nowhere: a fault is that of the instruction taken. -/
theorem step_fault_cases {s : State} {f : Fault} (h : step s = .fault f) :
    ∃ it rest i, s.pending = it :: rest ∧ fetch it s = .ok i ∧
      exec i { s with pending := rest } = .fault f := by
  cases hp : s.pending with
  | nil => cases (step_of_pending_nil hp).symm.trans h
  | cons it rest =>
    cases hf : fetch it s with
    | ok i => exact ⟨it, rest, i, rfl, hf, (step_of_fetch_ok hp hf).symm.trans h⟩
    | error e => cases (step_of_fetch_error hp hf).symm.trans h

/-- Settles O59: the queue is no part of the invariant, and no instruction faults under it. -/
theorem invariantStatesNeverFault : Obligations.InvariantStatesNeverFault := by
  intro s f hinv h
  obtain ⟨it, rest, i, -, -, hx⟩ := step_fault_cases h
  exact exec_ne_fault (hinv.setHost rest s.results) i f hx

end Sys2Proof.Machine
end
